-- ==== Sys2Proof/Word.lean ====
section
/-! DEFINITION. The word types of the block: every value of the spec is unsigned (00_scope.md R8, R13). -/

namespace Sys2Proof

/-- A payload, buffer or digest byte (R13). -/
abbrev Byte := BitVec 8

/-- A 64-bit word: `h[i]`, `v[i]`, `m[i]`, `IV[i]`, `t_lo`, `t_hi` (R5, R13). -/
abbrev Word := BitVec 64

/-- A 32-bit command word, bit 0 least significant (R55, R71). -/
abbrev CmdWord := BitVec 32

end Sys2Proof
end

