-- ==== Sys2Proof/Syntax.lean ====
section
/-! DEFINITION. The three commands of spec/opcode_table.json, each with its payload: a command is a pair
`(word, payload)` (30_encoding.md R70), and the payload is an operand of it (R100, R120, R204). -/

namespace Sys2Proof

/-- A decoded command. The fields have the widths of the command word (R72 to R75), so every field value is
encodable; the payload is whatever the host sent with the word, of any length (R76 says which length is
right, see WellFormed.lean; a wrong one is a command the core answers with PayloadMismatch, R204). -/
inductive Instr where
  /-- INIT, format I: OUTLEN, KEYLEN, and the key (R72, R100). -/
  | init (outlen keylen : BitVec 7) (key : List Byte)
  /-- ABSORB, format A: LEN, and the data (R73, R120). -/
  | absorb (len : BitVec 28) (data : List Byte)
  /-- FINALIZE, format F: no operand; its payload must be empty (R74, R180, R204). -/
  | finalize (payload : List Byte)
  deriving DecidableEq, Repr

end Sys2Proof
end

