-- ==== Sys2Proof/WellFormed.lean ====
section
/-! DEFINITION. When a command is well formed: its payload has the length its word declares (30_encoding.md
R76). An OUTLEN or KEYLEN value that is encodable but illegal is still well formed (R79). -/

namespace Sys2Proof

/-- The payload a command carries. -/
def Instr.payload : Instr → List Byte
  | .init _ _ key => key
  | .absorb _ data => data
  | .finalize payload => payload

/-- `DeclaredLength` of R205: KEYLEN for INIT, LEN for ABSORB, 0 for FINALIZE. -/
def Instr.declaredLength : Instr → Nat
  | .init _ keylen _ => keylen.toNat
  | .absorb len _ => len.toNat
  | .finalize _ => 0

/-- R76: the payload is as long as the command word declares. -/
def Instr.wellFormed (i : Instr) : Bool := i.payload.length == i.declaredLength

end Sys2Proof
end

