-- ==== Sys2Proof/Decode.lean ====
section
/-! DEFINITION. Decoding and encoding of commands (30_encoding.md). `decodeCommand` reads the 32-bit word the
core receives (20_memory.md R55); `decode` and `encode` are the same over a byte transport. -/

namespace Sys2Proof

/-- Why bits are no command. -/
inductive DecodeError where
  /-- `OP` is 0x0 or 0x4..0xF (R77). -/
  | reservedOpcode (op : BitVec 4)
  /-- INIT with a bit of 31:18 set, or FINALIZE with a bit of 31:4 set (R78). -/
  | reservedBits
  /-- Byte transport only: fewer than the four bytes of a command word. -/
  | shortWord
  /-- Byte transport only: fewer payload bytes than the word declares. -/
  | shortPayload
  deriving DecidableEq, Repr

/-- OP of INIT (R72). -/
def opInit : BitVec 4 := 0x1#4

/-- OP of ABSORB (R73). -/
def opAbsorb : BitVec 4 := 0x2#4

/-- OP of FINALIZE (R74). -/
def opFinalize : BitVec 4 := 0x3#4

/-- `OP = word[3:0]` (R71). -/
def fieldOp (w : CmdWord) : BitVec 4 := w.extractLsb' 0 4

/-- INIT's `OUTLEN = word[10:4]` (R72, R75). -/
def fieldOutlen (w : CmdWord) : BitVec 7 := w.extractLsb' 4 7

/-- INIT's `KEYLEN = word[17:11]` (R72, R75). -/
def fieldKeylen (w : CmdWord) : BitVec 7 := w.extractLsb' 11 7

/-- INIT's reserved bits `word[31:18]` (R72, R78). -/
def fieldInitReserved (w : CmdWord) : BitVec 14 := w.extractLsb' 18 14

/-- `word[31:4]`: ABSORB's LEN (R73, R75), FINALIZE's reserved bits (R74, R78). -/
def fieldLen (w : CmdWord) : BitVec 28 := w.extractLsb' 4 28

/-- `Decode(word)` of R81, with the payload the host sent laid into the command. -/
def decodeCommand (w : CmdWord) (payload : List Byte) : Except DecodeError Instr :=
  if fieldOp w = opInit then
    if fieldInitReserved w = 0 then .ok (.init (fieldOutlen w) (fieldKeylen w) payload)
    else .error .reservedBits
  else if fieldOp w = opAbsorb then .ok (.absorb (fieldLen w) payload)
  else if fieldOp w = opFinalize then
    if fieldLen w = 0 then .ok (.finalize payload) else .error .reservedBits
  else .error (.reservedOpcode (fieldOp w))

/-- The command word on a byte transport: the first byte carries bits 7..0 (R55). -/
def wordOfBytes (b0 b1 b2 b3 : Byte) : CmdWord := b3 ++ b2 ++ b1 ++ b0

/-- The four bytes of a command word, first byte first (R55). -/
def bytesOfWord (w : CmdWord) : List Byte :=
  [w.extractLsb' 0 8, w.extractLsb' 8 8, w.extractLsb' 16 8, w.extractLsb' 24 8]

/-- The payload length the word alone declares (R76). R76 takes a word with a reserved OP to carry none. DESIGN
CHOICE (log 16): so does an INIT word with a bit of 31:18 set, of which R76 does not say whether its KEYLEN field
counts. `step` does not depend on it. -/
def declaredPayload (w : CmdWord) : Nat :=
  match decodeCommand w [] with
  | .ok i => i.declaredLength
  | .error _ => 0

/-- Decoding of a byte stream: the word's four bytes (R55), then as many payload bytes as the word declares
(R76); the answer is the command and the bytes after it. DESIGN CHOICE (log 13): the spec fixes the word's
byte order and not how word and payload share one stream; `step` does not use this. -/
def decode : List Byte → Except DecodeError (Instr × List Byte)
  | b0 :: b1 :: b2 :: b3 :: rest =>
    let w := wordOfBytes b0 b1 b2 b3
    let n := declaredPayload w
    if rest.length < n then .error .shortPayload
    else
      match decodeCommand w (rest.take n) with
      | .ok i => .ok (i, rest.drop n)
      | .error e => .error e
  | _ => .error .shortWord

/-- The command word of a command: R72 (INIT), R73 (ABSORB), R74 (FINALIZE). -/
def encodeWord : Instr → CmdWord
  | .init outlen keylen _ => 0#14 ++ keylen ++ outlen ++ opInit
  | .absorb len _ => len ++ opAbsorb
  | .finalize _ => 0#28 ++ opFinalize

/-- A command on a byte transport: its word's bytes (R55), then its payload. -/
def encode (i : Instr) : List Byte := bytesOfWord (encodeWord i) ++ i.payload

/-- The command word that `nbits` bits `w`, numbered as spec/opcode_table.json numbers them, stand for: laid
out as bytes, lowest first, and read back (R55). Bits from `nbits` up are 0. -/
def tableWord (nbits w : Nat) : CmdWord :=
  let v := BitVec.ofNat 32 (w % 2 ^ nbits)
  wordOfBytes (v.extractLsb' 0 8) (v.extractLsb' 8 8) (v.extractLsb' 16 8) (v.extractLsb' 24 8)

/-- The operand bytes that stand beside a table word: zeros, as many as the word declares. DESIGN CHOICE
(log 14): over one block of 128 bytes none are laid out, and the command is then one whose payload
is missing (R204). -/
def tablePayload (w : CmdWord) : List Byte :=
  if declaredPayload w ≤ 128 then List.replicate (declaredPayload w) 0 else []

/-- The command the decoder reads from a row of spec/opcode_table.json with bits `w`. -/
def decodeTableWord (nbits w : Nat) : Option Instr :=
  match decodeCommand (tableWord nbits w) (tablePayload (tableWord nbits w)) with
  | .ok i => some i
  | .error _ => none

end Sys2Proof
end

