-- ==== Sys2Proof/Machine/Bits.lean ====
section
/-! DEFINITION. Rotation and the conversions between bytes and words (00_scope.md R10, R11; 20_memory.md R51,
R52). -/

namespace Sys2Proof.Machine

/-- Right rotation within 64 bits, for `0 < n < 64` (R10). -/
def rotr (x : Word) (n : Nat) : Word := (x >>> n) ||| (x <<< (64 - n))

/-- One term of R11's sum: byte `j` of a little-endian word. -/
def byteAt (b : Byte) (j : Nat) : Word := b.setWidth 64 <<< (8 * j)

/-- `LoadLE64(bytes, off)` (R11): eight bytes, the first least significant. Every use reads inside the byte
string; past its end a byte counts as 0. -/
def loadLE64 (bytes : List Byte) (off : Nat) : Word :=
  let b := fun j => byteAt (bytes.getD (off + j) 0) j
  b 0 + b 1 + b 2 + b 3 + b 4 + b 5 + b 6 + b 7

/-- `StoreLE64(w)` (R11): eight bytes, the least significant first. -/
def storeLE64 (w : Word) : List Byte :=
  [w.extractLsb' 0 8, w.extractLsb' 8 8, w.extractLsb' 16 8, w.extractLsb' 24 8,
   w.extractLsb' 32 8, w.extractLsb' 40 8, w.extractLsb' 48 8, w.extractLsb' 56 8]

/-- `Serialize(h)` (R11): 64 bytes, `h[0]` first. -/
def serialize (h : Vector Word 8) : List Byte :=
  storeLE64 h[0] ++ storeLE64 h[1] ++ storeLE64 h[2] ++ storeLE64 h[3] ++
  storeLE64 h[4] ++ storeLE64 h[5] ++ storeLE64 h[6] ++ storeLE64 h[7]

end Sys2Proof.Machine
end

