-- ==== Sys2Proof/Config.lean ====
section
/-! DEFINITION. The parameters of the block that 00_scope.md R5 fixes. The spec leaves none open, so there is
no free value here. The constant tables IV and SIGMA are in Machine/Tables.lean. -/

namespace Sys2Proof

/-- Block size and buffer size in bytes (R5: `BB`, buffer). -/
def Config.blockBytes : Nat := 128

/-- The largest legal OUTLEN, in bytes (R5, R101); the smallest is 1. -/
def Config.maxOutlen : Nat := 64

/-- The largest legal KEYLEN, in bytes (R5, R101); the smallest is 0. -/
def Config.maxKeylen : Nat := 64

end Sys2Proof
end

