-- ==== Sys2Proof/Machine/Flags.lean ====
section
/-! DEFINITION. The block sets no status flag (10_state.md R36). The two bits its rules do compute are here:
the carry of the counter add (41_absorb.md R122), kept in no flag, and the effect of `last` on `v[14]`
(42_compress.md R146). -/

namespace Sys2Proof.Machine

/-- R122: 1 if adding `n` to `lo` wrapped, tested on the wrapped sum, else 0. -/
def addCarry (lo n : Word) : Word := if lo + n < n then 1 else 0

/-- R146: `v[14]` complemented when `last = 1`. -/
def applyLast (last : Bool) (v14 : Word) : Word := if last then ~~~v14 else v14

end Sys2Proof.Machine
end

