-- ==== Sys2Proof/Machine/State.lean ====
section
/-! DEFINITION. The state of the block as plain data (10_state.md), the reasons a step can stop, and reset. -/

namespace Sys2Proof.Machine

/-- PHASE, the session lifecycle (10_state.md R28). -/
inductive Phase where
  /-- 0: no session has been initialized since reset. -/
  | uninit
  /-- 1: a session is initialized and accepts ABSORB and FINALIZE. -/
  | active
  /-- 2: the session was finalized. -/
  | terminal
  /-- 3: a fault was recorded; no command is performed until reset. -/
  | faulted
  deriving DecidableEq, Repr

/-- The status codes the core produces (60_exceptions.md R200). -/
inductive Status where
  /-- 0: the command was performed. -/
  | ok
  /-- 1: R201, an error that is no fault. -/
  | invalidParameter
  /-- 2: R202. -/
  | illegalCommand
  /-- 3: R203. -/
  | sessionMisuse
  /-- 4: R204. -/
  | payloadMismatch
  deriving DecidableEq, Repr

/-- The three causes that enter FAULTED (R200, R206). -/
inductive Trap where
  /-- Code 2 (R202). -/
  | illegalCommand
  /-- Code 3 (R203). -/
  | sessionMisuse
  /-- Code 4 (R204). -/
  | payloadMismatch
  deriving DecidableEq, Repr

/-- A response: a status and a byte string (30_encoding.md R70). -/
structure Response where
  status : Status
  data : List Byte
  deriving DecidableEq, Repr

/-- What the host presents to the core, one at a time (30_encoding.md R70; 70_reset_and_hazards.md R230). -/
inductive Input where
  /-- A command: its word and its payload bytes. -/
  | command (word : CmdWord) (payload : List Byte)
  /-- The reset input, taken between commands. -/
  | reset
  deriving DecidableEq, Repr

/-- Byte-addressed storage in canonical form: (index, byte) pairs with strictly rising indices. An index that
is not listed has never been written and holds no value (10_state.md R38, log 4). -/
abbrev Memory := List Host.Cell

/-- Every element of 10_state.md R20, and the two channels to the host (log 1). -/
structure State where
  /-- PHASE (R28). -/
  phase : Phase
  /-- FAULT, a 4-bit code (R29). -/
  fault : BitVec 4
  /-- Chaining state `h[0..7]` (R21). -/
  h : Vector Word 8
  /-- Byte counter, low word (R22). -/
  tLo : Word
  /-- Byte counter, high word (R22). -/
  tHi : Word
  /-- Session buffer `buf[0..127]` (R24, R50). -/
  buf : Memory
  /-- Cursor, an 8-bit register (R25). -/
  cursor : BitVec 8
  /-- OUTLEN, a 7-bit register (R26). -/
  outlen : BitVec 7
  /-- The model's own: what the host presents next, in issue order (log 1). -/
  inputs : List Input
  /-- The model's own: the responses given so far, oldest first (R240, log 1). -/
  responses : List Response
  deriving DecidableEq, Repr

/-- Reasons the model stops. No state a run reaches raises one (10_state.md R38, 20_memory.md R64). -/
inductive Fault where
  /-- A buffer byte that nothing has written was read. Raised by COMPRESS's parse of the buffer
  (`bufRead`). Safe: R38 asks for a fault on such a read (log 4). -/
  | bufferUnwritten (index : Nat)
  /-- A buffer index over 127, which does not exist (R50). Raised by `bufRead` and `bufWrite`, on a cursor
  value 129..255 that no command leaves. Safe (log 6). -/
  | bufferRange (index : Nat)
  deriving DecidableEq, Repr

/-- Reasons the model gives no meaning. -/
inductive Refusal where
  /-- An instruction without a meaning; raised by no arm of `exec`. Safe. -/
  | notModelled (mnemonic : String)
  /-- FAULT holds a reserved code 5..15, which nothing writes (R29, R200; 93_implementation_defined.md U12).
  Raised by `answerFaulted`. Safe (log 9). -/
  | reservedStatus (code : BitVec 4)
  deriving DecidableEq, Repr

/-- The state right after reset (10_state.md R38): PHASE UNINIT, FAULT 0, no buffer byte written. The spec
gives `h`, `t_lo`, `t_hi`, `cursor` and OUTLEN no value; 0 is a DESIGN CHOICE (log 3, unsafe). The channels
are empty (log 1). -/
def State.reset : State where
  phase := .uninit
  fault := 0
  h := #v[0, 0, 0, 0, 0, 0, 0, 0]
  tLo := 0
  tHi := 0
  buf := []
  cursor := 0
  outlen := 0
  inputs := []
  responses := []

end Sys2Proof.Machine
end

