-- ==== Sys2Proof/Machine/Ops.lean ====
section
/-! DEFINITION. The operations every command is built from: the buffer, the response channel, the named
register writes, taking a fault and leaving it by reset, and the checks common to every command. -/

namespace Sys2Proof.Machine

/-! ## Memory in canonical form -/

/-- The canonical form: indices strictly rise (so no index is listed twice). -/
abbrev Memory.wf (m : Memory) : Prop := (m.map Prod.fst).Pairwise (· < ·)

/-- The byte at an index; none where nothing was written (10_state.md R38, log 4). -/
def Memory.read : Memory → Nat → Option Byte
  | [], _ => none
  | (k, b) :: rest, a => if k = a then some b else Memory.read rest a

/-- Write one byte, keeping the canonical form. -/
def Memory.write : Memory → Nat → Byte → Memory
  | [], a, b => [(a, b)]
  | (k, c) :: rest, a, b =>
    if a < k then (a, b) :: (k, c) :: rest
    else if a = k then (a, b) :: rest
    else (k, c) :: Memory.write rest a b

/-- Write consecutive bytes from an index up, in that order. -/
def Memory.writeList : Memory → Nat → List Byte → Memory
  | m, _, [] => m
  | m, a, b :: rest => Memory.writeList (Memory.write m a b) (a + 1) rest

/-! ## Named writes of registers -/

/-- `respond(status, data)` (00_scope.md R12): the response goes out on the response channel. -/
def State.respond (s : State) (st : Status) (data : List Byte) : State :=
  { s with responses := s.responses ++ [⟨st, data⟩] }

/-- Write the chaining state. -/
def State.setHash (s : State) (h : Vector Word 8) : State := { s with h := h }

/-- Write the session buffer. -/
def State.setBuf (s : State) (m : Memory) : State := { s with buf := m }

/-- Write the cursor. -/
def State.setCursor (s : State) (c : BitVec 8) : State := { s with cursor := c }

/-- Write PHASE. -/
def State.setPhase (s : State) (p : Phase) : State := { s with phase := p }

/-- Leave the host's next inputs as given. -/
def State.setInputs (s : State) (l : List Input) : State := { s with inputs := l }

/-- `CounterAdd(n)` (41_absorb.md R122, R123): the carry goes into the high word, which wraps. -/
def State.counterAdd (s : State) (n : Word) : State :=
  { s with tLo := s.tLo + n, tHi := s.tHi + addCarry s.tLo n }

/-- The 128-bit byte counter `t = t_hi * 2^64 + t_lo` (10_state.md R22). -/
def State.counter (s : State) : BitVec 128 := s.tHi ++ s.tLo

/-! ## The session buffer -/

/-- `BufRead(i)` (00_scope.md R12): index 0..127 (20_memory.md R50). -/
def bufRead (s : State) (i : Nat) : Except Fault Byte :=
  if i < Config.blockBytes then
    match s.buf.read i with
    | some b => .ok b
    | none => .error (.bufferUnwritten i)
  else .error (.bufferRange i)

/-- `BufWrite(i, b)` (00_scope.md R12): index 0..127 (20_memory.md R50). -/
def bufWrite (s : State) (i : Nat) (b : Byte) : Except Fault State :=
  if i < Config.blockBytes then .ok (s.setBuf (s.buf.write i b)) else .error (.bufferRange i)

/-- `n` buffer bytes from index `i` up. -/
def bufReadList (s : State) (i : Nat) : Nat → Except Fault (List Byte)
  | 0 => .ok []
  | n + 1 =>
    match bufRead s i with
    | .error f => .error f
    | .ok b =>
      match bufReadList s (i + 1) n with
      | .error f => .error f
      | .ok rest => .ok (b :: rest)

/-- `BufWrite` of consecutive bytes from index `i` up. -/
def bufWriteList (s : State) (i : Nat) : List Byte → Except Fault State
  | [] => .ok s
  | b :: rest =>
    match bufWrite s i b with
    | .error f => .error f
    | .ok s' => bufWriteList s' (i + 1) rest

/-! ## Status codes -/

/-- The 4-bit code of a status (60_exceptions.md R200). -/
def Status.code : Status → BitVec 4
  | .ok => 0
  | .invalidParameter => 1
  | .illegalCommand => 2
  | .sessionMisuse => 3
  | .payloadMismatch => 4

/-- The status a code stands for; 5..15 are reserved (R200). -/
def Status.ofCode (c : BitVec 4) : Option Status :=
  if c = 0 then some .ok
  else if c = 1 then some .invalidParameter
  else if c = 2 then some .illegalCommand
  else if c = 3 then some .sessionMisuse
  else if c = 4 then some .payloadMismatch
  else none

/-- The status a fault answers with (R200). -/
def Trap.status : Trap → Status
  | .illegalCommand => .illegalCommand
  | .sessionMisuse => .sessionMisuse
  | .payloadMismatch => .payloadMismatch

/-- PHASE's 2-bit value (10_state.md R28). -/
def Phase.code : Phase → BitVec 2
  | .uninit => 0
  | .active => 1
  | .terminal => 2
  | .faulted => 3

/-! ## Taking a fault, and leaving it -/

/-- Fault entry (60_exceptions.md R206): `FAULT <- e`, `PHASE <- FAULTED`, nothing else; response `(e, [])`. -/
def raise (e : Trap) (s : State) : State :=
  { s with fault := e.status.code, phase := .faulted }.respond e.status []

/-- A command while FAULTED (R207): answered with `(FAULT, [])`, nothing written. A reserved code in FAULT,
which nothing writes, is refused (93_implementation_defined.md U12, log 9). -/
def answerFaulted (s : State) : Host.Outcome State Fault Refusal :=
  match Status.ofCode s.fault with
  | some st => .next (s.respond st [])
  | none => .refused (.reservedStatus s.fault)

/-- The reset input (70_reset_and_hazards.md R230), the only way out of FAULTED: every register as
`State.reset` has it (10_state.md R38, log 5); the channels to the host are not the core's. -/
def takeReset (s : State) : State :=
  { State.reset with inputs := s.inputs, responses := s.responses }

/-- No command presented: the core is idle and its state is kept (60_exceptions.md R213, log 2). -/
def idle (s : State) : State := s

/-! ## The checks of R205 -/

/-- The checks common to every legal word, in R205's order: FAULTED (R207), then the payload length (R204). -/
def checked (declared : Nat) (payload : List Byte) (s : State)
    (perform : State → Host.Outcome State Fault Refusal) : Host.Outcome State Fault Refusal :=
  if s.phase = .faulted then answerFaulted s
  else if payload.length ≠ declared then .next (raise .payloadMismatch s)
  else perform s

/-- ABSORB and FINALIZE need an ACTIVE session (R203, R205). -/
def requireActive (s : State) (perform : State → Host.Outcome State Fault Refusal) :
    Host.Outcome State Fault Refusal :=
  if s.phase = .active then perform s else .next (raise .sessionMisuse s)

/-- A word that is no command: the sticky answer while FAULTED, else IllegalCommand (R202, R205, R207). Its
payload, whatever it is, is not looked at (log 15). -/
def illegalWord (s : State) : Host.Outcome State Fault Refusal :=
  if s.phase = .faulted then answerFaulted s else .next (raise .illegalCommand s)

/-- How a command ends: the state its effect left, or the reason the model stopped. -/
def finish : Except Fault State → Host.Outcome State Fault Refusal
  | .ok s => .next s
  | .error f => .fault f

end Sys2Proof.Machine
end

