-- ==== Sys2Proof/Machine/Compress.lean ====
section
/-! DEFINITION. COMPRESS and the mixing primitive G (42_compress.md). Internal micro-operations: no command
encodes them (30_encoding.md R82). -/

namespace Sys2Proof.Machine

/-- Four distinct indices of the working vector (R141). G with repeated indices has no meaning
(93_implementation_defined.md U13), and no `Quad` has any (log 10). -/
structure Quad where
  a : Fin 16
  b : Fin 16
  c : Fin 16
  d : Fin 16
  distinct : [a, b, c, d].Nodup
  deriving DecidableEq, Repr

/-- The four words of the working vector one G call reads and writes. -/
structure Lane where
  a : Word
  b : Word
  c : Word
  d : Word
  deriving DecidableEq, Repr

/-- The eight statements of G (R141), in order; each reads what the ones before it wrote. -/
def mixLane (l : Lane) (x y : Word) : Lane :=
  let a := l.a + l.b + x
  let d := rotr (l.d ^^^ a) 32
  let c := l.c + d
  let b := rotr (l.b ^^^ c) 24
  let a := a + b + y
  let d := rotr (d ^^^ a) 16
  let c := c + d
  let b := rotr (b ^^^ c) 63
  ⟨a, b, c, d⟩

/-- The words of `v` at four indices. -/
def laneOf (v : Vector Word 16) (q : Quad) : Lane := ⟨v[q.a], v[q.b], v[q.c], v[q.d]⟩

/-- Put four words back at their indices. -/
def putLane (v : Vector Word 16) (q : Quad) (l : Lane) : Vector Word 16 :=
  (((v.set q.a l.a).set q.b l.b).set q.c l.c).set q.d l.d

/-- `G(a, b, c, d, x, y)` on the working vector (R141). -/
def mixG (q : Quad) (x y : Word) (v : Vector Word 16) : Vector Word 16 :=
  putLane v q (mixLane (laneOf v q) x y)

/-- Column calls `k = 0..3` (R143). -/
def column0 : Quad := ⟨0, 4, 8, 12, by decide⟩
/-- `k = 1`. -/
def column1 : Quad := ⟨1, 5, 9, 13, by decide⟩
/-- `k = 2`. -/
def column2 : Quad := ⟨2, 6, 10, 14, by decide⟩
/-- `k = 3`. -/
def column3 : Quad := ⟨3, 7, 11, 15, by decide⟩
/-- Diagonal calls `k = 4..7` (R143). -/
def diagonal0 : Quad := ⟨0, 5, 10, 15, by decide⟩
/-- `k = 5`. -/
def diagonal1 : Quad := ⟨1, 6, 11, 12, by decide⟩
/-- `k = 6`. -/
def diagonal2 : Quad := ⟨2, 7, 8, 13, by decide⟩
/-- `k = 7`. -/
def diagonal3 : Quad := ⟨3, 4, 9, 14, by decide⟩

/-- One round with its SIGMA row `s` (R143, R144, R148): columns, then diagonals. -/
def mixRound (m : Vector Word 16) (v : Vector Word 16) (s : Vector (Fin 16) 16) : Vector Word 16 :=
  let v := mixG column0 m[s[0]] m[s[1]] v
  let v := mixG column1 m[s[2]] m[s[3]] v
  let v := mixG column2 m[s[4]] m[s[5]] v
  let v := mixG column3 m[s[6]] m[s[7]] v
  let v := mixG diagonal0 m[s[8]] m[s[9]] v
  let v := mixG diagonal1 m[s[10]] m[s[11]] v
  let v := mixG diagonal2 m[s[12]] m[s[13]] v
  let v := mixG diagonal3 m[s[14]] m[s[15]] v
  v

/-- The message parse (R145): sixteen little-endian words of a 128-byte block. -/
def messageWords (block : List Byte) : Vector Word 16 :=
  #v[loadLE64 block 0, loadLE64 block 8, loadLE64 block 16, loadLE64 block 24,
     loadLE64 block 32, loadLE64 block 40, loadLE64 block 48, loadLE64 block 56,
     loadLE64 block 64, loadLE64 block 72, loadLE64 block 80, loadLE64 block 88,
     loadLE64 block 96, loadLE64 block 104, loadLE64 block 112, loadLE64 block 120]

/-- The working vector before round 0 (R146). -/
def workingVector (h : Vector Word 8) (tLo tHi : Word) (last : Bool) : Vector Word 16 :=
  #v[h[0], h[1], h[2], h[3], h[4], h[5], h[6], h[7],
     iv[0], iv[1], iv[2], iv[3], iv[4] ^^^ tLo, iv[5] ^^^ tHi, applyLast last iv[6], iv[7]]

/-- The feed-forward (R147): `h[i] XOR v[i] XOR v[i+8]`. -/
def feedForward (h : Vector Word 8) (v : Vector Word 16) : Vector Word 8 :=
  #v[h[0] ^^^ v[0] ^^^ v[8], h[1] ^^^ v[1] ^^^ v[9], h[2] ^^^ v[2] ^^^ v[10], h[3] ^^^ v[3] ^^^ v[11],
     h[4] ^^^ v[4] ^^^ v[12], h[5] ^^^ v[5] ^^^ v[13], h[6] ^^^ v[6] ^^^ v[14], h[7] ^^^ v[7] ^^^ v[15]]

/-- COMPRESS (R148) on the sixteen message words of a block: set-up, twelve rounds, feed-forward. -/
def compress (h : Vector Word 8) (m : Vector Word 16) (tLo tHi : Word) (last : Bool) : Vector Word 8 :=
  feedForward h (sigma.toList.foldl (mixRound m) (workingVector h tLo tHi last))

/-- `h <- COMPRESS(h, buf, t_lo, t_hi, last)` on the session (R140, R145, R148): all 128 buffer bytes are
read, and only `h` is written. -/
def compressBuf (last : Bool) (s : State) : Except Fault State :=
  match bufReadList s 0 Config.blockBytes with
  | .error f => .error f
  | .ok block => .ok (s.setHash (compress s.h (messageWords block) s.tLo s.tHi last))

end Sys2Proof.Machine
end

