-- ==== Sys2Proof/Machine/Absorb.lean ====
section
/-! DEFINITION. ABSORB and the byte step (41_absorb.md). -/

namespace Sys2Proof.Machine

/-- The flush of a full buffer (R121): the counter first, then COMPRESS as a non-final block, then
`cursor <- 0`. -/
def flush (s : State) : Except Fault State :=
  match compressBuf false (s.counterAdd 128) with
  | .error f => .error f
  | .ok s' => .ok (s'.setCursor 0)

/-- The flush test of the byte step (R121, R124): a block is compressed only when a byte finds it full. -/
def flushIfFull (s : State) : Except Fault State :=
  if s.cursor = 128 then flush s else .ok s

/-- `AbsorbByte(b)` (R121). -/
def absorbByte (b : Byte) (s : State) : Except Fault State :=
  match flushIfFull s with
  | .error f => .error f
  | .ok s' =>
    match bufWrite s' s'.cursor.toNat b with
    | .error f => .error f
    | .ok s'' => .ok (s''.setCursor (s''.cursor + 1))

/-- The byte step over a payload, in payload order (R54, R120). -/
def absorbBytes : List Byte → State → Except Fault State
  | [], s => .ok s
  | b :: rest, s =>
    match absorbByte b s with
    | .error f => .error f
    | .ok s' => absorbBytes rest s'

/-- ABSORB in an ACTIVE session (R120). -/
def performAbsorb (data : List Byte) (s : State) : Except Fault State :=
  match absorbBytes data s with
  | .error f => .error f
  | .ok s' => .ok (s'.respond .ok [])

/-- ABSORB (R120, R127): the checks of 60_exceptions.md R205, then the byte loop. -/
def execAbsorb (len : BitVec 28) (data : List Byte) (s : State) : Host.Outcome State Fault Refusal :=
  checked len.toNat data s fun s => requireActive s fun s => finish (performAbsorb data s)

end Sys2Proof.Machine
end

