-- ==== Sys2Proof/Machine/Operands.lean ====
section
/-! DEFINITION. What the commands make of their operands: INIT's parameter contract, parameter encoding and
key block (40_initialize.md R101, R103, R104), and the counter value of a cursor (43_finalize.md R181). Every
field is an unsigned bit field taken as it is (30_encoding.md R75). -/

namespace Sys2Proof.Machine

/-- R101: `1 <= OUTLEN <= 64` and `0 <= KEYLEN <= 64`. -/
def legalParameters (outlen keylen : BitVec 7) : Bool :=
  1 ≤ outlen.toNat && outlen.toNat ≤ Config.maxOutlen && keylen.toNat ≤ Config.maxKeylen

/-- `P(outlen, keylen) = 0x01010000 XOR (keylen << 8) XOR outlen` (R103). -/
def parameterWord (outlen keylen : BitVec 7) : Word :=
  0x01010000 ^^^ (keylen.setWidth 64 <<< 8) ^^^ outlen.setWidth 64

/-- The chaining state INIT leaves (R103): IV with `h[0] XOR P`. -/
def initialHash (outlen keylen : BitVec 7) : Vector Word 8 :=
  iv.set 0 (iv[0] ^^^ parameterWord outlen keylen)

/-- The key block (R104): the key, zero-padded to 128 bytes. -/
def keyBlock (key : List Byte) : List Byte :=
  key ++ List.replicate (Config.blockBytes - key.length) 0

/-- The zero bytes FINALIZE lays from `cursor` to 127 (43_finalize.md R182). -/
def zeroFill (cursor : BitVec 8) : List Byte :=
  List.replicate (Config.blockBytes - cursor.toNat) 0

/-- The cursor as the counter's addend (43_finalize.md R181). -/
def cursorWord (cursor : BitVec 8) : Word := cursor.setWidth 64

end Sys2Proof.Machine
end

