-- ==== Sys2Proof/Machine/Finalize.lean ====
section
/-! DEFINITION. FINALIZE (43_finalize.md). -/

namespace Sys2Proof.Machine

/-- `prefix(Serialize(h), OUTLEN)` (R184); at most the 64 bytes there are (log 8). -/
def digest (s : State) : List Byte := (serialize s.h).take s.outlen.toNat

/-- Steps 1 and 2 of R180: the counter takes the pending bytes in (R181), and `buf[cursor..127]` is zeroed
(R182), which is no byte for a cursor over 127 (log 7). -/
def padFinalBlock (s : State) : Except Fault State :=
  bufWriteList (s.counterAdd (cursorWord s.cursor)) s.cursor.toNat (zeroFill s.cursor)

/-- FINALIZE in an ACTIVE session (R180): pad, COMPRESS with `last = 1` (R183), the digest (R184), PHASE
TERMINAL (R185). -/
def performFinalize (s : State) : Except Fault State :=
  match padFinalBlock s with
  | .error f => .error f
  | .ok s' =>
    match compressBuf true s' with
    | .error f => .error f
    | .ok s'' => .ok ((s''.setPhase .terminal).respond .ok (digest s''))

/-- FINALIZE (R180, R188): the checks of 60_exceptions.md R205, its payload empty, then the effect. -/
def execFinalize (payload : List Byte) (s : State) : Host.Outcome State Fault Refusal :=
  checked 0 payload s fun s => requireActive s fun s => finish (performFinalize s)

end Sys2Proof.Machine
end

