-- ==== Sys2Proof/Machine/Initialize.lean ====
section
/-! DEFINITION. INIT (40_initialize.md). -/

namespace Sys2Proof.Machine

/-- Steps 1 to 4 of R100: chaining state, counter, cursor, OUTLEN. -/
def State.beginSession (s : State) (outlen keylen : BitVec 7) : State :=
  { s with h := initialHash outlen keylen, tLo := 0, tHi := 0, cursor := 0, outlen := outlen }

/-- Step 5 of R100: a key forms a pending first block, written whole and not compressed (R104); without a
key no buffer byte is written (R105). -/
def loadKey (keylen : BitVec 7) (key : List Byte) (s : State) : Except Fault State :=
  if keylen = 0 then .ok s
  else
    match bufWriteList s 0 (keyBlock key) with
    | .error f => .error f
    | .ok s' => .ok (s'.setCursor 128)

/-- A legal INIT (R100), from any PHASE but FAULTED (R106). -/
def performInit (outlen keylen : BitVec 7) (key : List Byte) (s : State) : Except Fault State :=
  match loadKey keylen key (s.beginSession outlen keylen) with
  | .error f => .error f
  | .ok s' => .ok ((s'.setPhase .active).respond .ok [])

/-- INIT (R100, R107): the checks of 60_exceptions.md R205, then InvalidParameter with nothing written
(R101, R102), then the effect. -/
def execInit (outlen keylen : BitVec 7) (key : List Byte) (s : State) : Host.Outcome State Fault Refusal :=
  checked keylen.toNat key s fun s =>
    if legalParameters outlen keylen then finish (performInit outlen keylen key s)
    else .next (s.respond .invalidParameter [])

end Sys2Proof.Machine
end

