-- ==== Sys2Proof/Machine/Dispatch.lean ====
section
/-! DEFINITION. One arm per command of spec/opcode_table.json. -/

namespace Sys2Proof.Machine

/-- What a command does. -/
def exec (i : Instr) (s : State) : Host.Outcome State Fault Refusal :=
  match i with
  | .init outlen keylen key => Sys2Proof.Machine.execInit outlen keylen key s
  | .absorb len data => Sys2Proof.Machine.execAbsorb len data s
  | .finalize payload => Sys2Proof.Machine.execFinalize payload s

end Sys2Proof.Machine
end

