-- ==== Sys2Proof/Machine/Step.lean ====
section
/-! DEFINITION. One step: the core takes what the host presents next and performs it whole (00_scope.md R6;
60_exceptions.md R205). -/

namespace Sys2Proof.Machine

/-- `Step(word, payload)` of R205, on the head of `inputs`: a command that decodes is run by `exec`, whose
first check is the FAULTED one; a word that is no command raises IllegalCommand after that same check; the
reset input is taken (70_reset_and_hazards.md R230); with nothing presented the core is idle. -/
def step (s : State) : Host.Outcome State Fault Refusal :=
  match s.inputs with
  | [] => .next (idle s)
  | .reset :: rest => .next (takeReset (s.setInputs rest))
  | .command word payload :: rest =>
    match decodeCommand word payload with
    | .ok i => exec i (s.setInputs rest)
    | .error _ => illegalWord (s.setInputs rest)

/-- `s` with the command whose word has the low `nbits` bits of `w` presented next, before what the host
presents otherwise, with operand bytes of zeros (log 14). -/
def State.withFetchWord (s : State) (nbits w : Nat) : State :=
  s.setInputs (.command (tableWord nbits w) (tablePayload (tableWord nbits w)) :: s.inputs)

end Sys2Proof.Machine
end

