-- ==== Sys2Proof/Machine/Assembler.lean ====
section
/-! DEFINITION. What a line of the textual syntax stands for (30_encoding.md R83) and the expansion of the
pseudo-commands (R84): the inputs the host presents. Operands are byte strings already read from the text. -/

namespace Sys2Proof.Machine

/-- The most bytes one ABSORB carries (30_encoding.md R73). -/
def maxAbsorb : Nat := 268435455

/-- `INIT <outlen>, <key>`: word `0x1 | outlen << 4 | len(key) << 11` (R83). -/
def asmInit (outlen : Nat) (key : List Byte) : Input :=
  .command (1 ||| (BitVec.ofNat 32 outlen <<< 4) ||| (BitVec.ofNat 32 key.length <<< 11)) key

/-- `ABSORB <data>` of at most `maxAbsorb` bytes: word `0x2 | len(data) << 4` (R83). -/
def asmAbsorbOne (data : List Byte) : Input :=
  .command (2 ||| (BitVec.ofNat 32 data.length <<< 4)) data

/-- `FINALIZE` (R83). -/
def asmFinalize : Input := .command 0x00000003 []

/-- `.word <hex32>, <bytes>` (R83). -/
def asmWord (word : CmdWord) (payload : List Byte) : Input := .command word payload

/-- Successive ABSORBs of at most `maxAbsorb` bytes each, in order (R84); `n` bounds how many. DESIGN CHOICE
(log 17): R84 leaves the sizes of the pieces open, and here every piece but the last has `maxAbsorb` bytes. -/
def asmAbsorbUpTo : Nat → List Byte → List Input
  | 0, _ => []
  | n + 1, data =>
    if data.length ≤ maxAbsorb then [asmAbsorbOne data]
    else asmAbsorbOne (data.take maxAbsorb) :: asmAbsorbUpTo n (data.drop maxAbsorb)

/-- `ABSORB <data>`, of any length (R83, R84), cut as `asmAbsorbUpTo` cuts it (log 17). -/
def asmAbsorb (data : List Byte) : List Input := asmAbsorbUpTo (data.length + 1) data

/-- `INITU <outlen>`: unkeyed (R84). -/
def asmInitU (outlen : Nat) : Input := asmInit outlen []

/-- `ABSORBB <byte>`: LEN = 1 (R84). -/
def asmAbsorbB (byte : Byte) : Input := asmAbsorbOne [byte]

/-- `HASH <outlen>, <key>, <data>` (R84). -/
def asmHash (outlen : Nat) (key data : List Byte) : List Input :=
  asmInit outlen key :: asmAbsorb data ++ [asmFinalize]

end Sys2Proof.Machine
end

