-- ==== Sys2Proof/Safety.lean ====
section
/-! DEFINITION. What claims about the block are stated in: the invariant that holds between commands, what of
a state can ever matter, and the hash of a message as one function. -/

namespace Sys2Proof.Machine

/-- The meaningful bytes of the buffer: indices below `cursor` (10_state.md R24, R25). -/
def State.pending (s : State) : List Byte :=
  (List.range s.cursor.toNat).map fun i => (s.buf.read i).getD 0

/-- The state between commands (10_state.md R25, R26, R29, R37; 20_memory.md R50, R64). Of R37 (b) and (c) it
holds what the registers themselves show; when a byte was written is no state. -/
structure State.Inv (s : State) : Prop where
  /-- The buffer's list is in canonical form. -/
  bufWf : s.buf.wf
  /-- Buffer indices are 0..127 (R50). -/
  bufBound : ∀ c ∈ s.buf, c.1 < 128
  /-- R37 (a). -/
  cursorLe : s.cursor.toNat ≤ 128
  /-- R37 (b): every byte below `cursor` of an ACTIVE session has been written. -/
  written : s.phase = .active → ∀ i < s.cursor.toNat, (s.buf.read i).isSome
  /-- R37 (b): the counter of an ACTIVE session counts whole blocks. -/
  wholeBlocks : s.phase = .active → s.counter.toNat % 128 = 0
  /-- R26: OUTLEN is 1..64 in every ACTIVE or TERMINAL session. -/
  outlenLegal : s.phase = .active ∨ s.phase = .terminal → 1 ≤ s.outlen.toNat ∧ s.outlen.toNat ≤ 64
  /-- R29: FAULT is 0 while no fault has been recorded. -/
  noFault : s.phase ≠ .faulted → s.fault = 0
  /-- R29: in FAULTED it is the code of a fault. -/
  faultCode : s.phase = .faulted → s.fault = 2 ∨ s.fault = 3 ∨ s.fault = 4

/-- Two states that agree on everything that can ever reach a response: PHASE, FAULT, both channels and, in
an ACTIVE session, `h`, `t`, `cursor`, OUTLEN and the buffer bytes below `cursor` (10_state.md R24, R38;
20_memory.md R64; 43_finalize.md R185). -/
structure State.Agree (s t : State) : Prop where
  phase : s.phase = t.phase
  fault : s.fault = t.fault
  inputs : s.inputs = t.inputs
  responses : s.responses = t.responses
  hash : s.phase = .active → s.h = t.h
  counterLo : s.phase = .active → s.tLo = t.tLo
  counterHi : s.phase = .active → s.tHi = t.tHi
  cursor : s.phase = .active → s.cursor = t.cursor
  outlen : s.phase = .active → s.outlen = t.outlen
  bytes : s.phase = .active → ∀ i < s.cursor.toNat, s.buf.read i = t.buf.read i

/-- The registers of 10_state.md R20 alone, without the channels to the host. -/
def State.registers (s : State) : State := { s with inputs := [], responses := [] }

/-- A response that makes a run faulted (70_reset_and_hazards.md R240): code 2, 3 or 4. -/
def Response.isFault (r : Response) : Bool :=
  r.status == .illegalCommand || r.status == .sessionMisuse || r.status == .payloadMismatch

/-- The ABSORB command that sends `data` (30_encoding.md R83), for data its LEN field can count. -/
def absorbInput (data : List Byte) : Input :=
  .command (encodeWord (.absorb (BitVec.ofNat 28 data.length) data)) data

/-- The INIT command with OUTLEN `outlen` and the key (R83). -/
def initInput (outlen keylen : BitVec 7) (key : List Byte) : Input :=
  .command (encodeWord (.init outlen keylen key)) key

/-- The FINALIZE command (R83). -/
def finalizeInput : Input := .command (encodeWord (.finalize [])) []

/-- `k` non-final compressions of the first `128 * k` bytes of a stream, each block counted before it is
compressed (41_absorb.md R121, R126). -/
def compressBlocks : Nat → Vector Word 8 × BitVec 128 → List Byte → Vector Word 8 × BitVec 128
  | 0, ht, _ => ht
  | k + 1, (h, t), bytes =>
    let t' := t + 128
    compressBlocks k
      (compress h (messageWords (bytes.take 128)) (t'.extractLsb' 0 64) (t'.extractLsb' 64 64) false, t')
      (bytes.drop 128)

/-- The number of non-final compressions of a stream: all of it but a last block of 1..128 bytes, which is
held back (41_absorb.md R124, R126; 43_finalize.md R187). -/
def fullBlocks (bytes : List Byte) : Nat := (bytes.length - 1) / 128

/-- The byte stream a session hashes: the padded key block, if there is a key, then the data (R54, R104). -/
def sessionStream (key data : List Byte) : List Byte :=
  (if key = [] then [] else keyBlock key) ++ data

/-- BLAKE2b of a message in one go, written from R103, R126, R145 to R148, R184 and R187 without the buffer,
the cursor or any session: all blocks but the last with `last = 0`, the last one zero-padded with `last = 1`
and the count of all bytes. -/
def blake2b (outlen keylen : BitVec 7) (key data : List Byte) : List Byte :=
  let stream := sessionStream key data
  let (h, t) := compressBlocks (fullBlocks stream) (initialHash outlen keylen, 0) stream
  let last := stream.drop (128 * fullBlocks stream)
  let t' := t + BitVec.ofNat 128 last.length
  let block := last ++ List.replicate (128 - last.length) 0
  (serialize (compress h (messageWords block) (t'.extractLsb' 0 64) (t'.extractLsb' 64 64) true)).take
    outlen.toNat

end Sys2Proof.Machine
end

