-- ==== Sys2Proof/Certificates/Slice0/Obligations.lean ====
section
/-! DEFINITION. The statements for the provers, from the numbered rules of spec/. Where a statement restates a
rule's formula it does so in its own terms (numbers and slices of a word, `BitVec.rotateRight`, a whole-message
hash), not by the names the meanings use. -/

open Sys2Proof Sys2Proof.Machine

/-! ## Encoding -/

/-- Decoding an encoded well-formed command gives it back, with the rest of the stream (30_encoding.md R72 to
R76; 20_memory.md R55). That the payload follows the word in one stream is the model's (log 13). -/
def Obligations.DecodeOfEncode : Prop :=
  ∀ (i : Instr) (rest : List Byte), i.wellFormed = true → decode (encode i ++ rest) = .ok (i, rest)

/-- A word that decodes is the word of the command it decodes to: each word has one meaning (R80). -/
def Obligations.DecodedCommandReencodes : Prop :=
  ∀ (w : CmdWord) (p : List Byte) (i : Instr),
    decodeCommand w p = .ok i → encodeWord i = w ∧ i.payload = p

/-- R80: every word is exactly one of an INIT word, an ABSORB word, the FINALIZE word or an illegal word; the
first three are those the opcode table's mask and match give (R72, R73, R74). -/
def Obligations.EveryWordHasOneMeaning : Prop :=
  ∀ (w : CmdWord) (p : List Byte),
    (w &&& 0xFFFC000F#32 = 0x00000001#32 ↔ ∃ o k, decodeCommand w p = .ok (.init o k p)) ∧
    (w &&& 0x0000000F#32 = 0x00000002#32 ↔ ∃ n, decodeCommand w p = .ok (.absorb n p)) ∧
    (w = 0x00000003#32 ↔ decodeCommand w p = .ok (.finalize p)) ∧
    ((∃ e, decodeCommand w p = .error e) ↔
      w &&& 0xFFFC000F#32 ≠ 0x00000001#32 ∧ w &&& 0x0000000F#32 ≠ 0x00000002#32 ∧ w ≠ 0x00000003#32)

/-- R81, with the word as a number: `word[3:0]` is `n % 16`, `word[31:18]` is `n / 2^18`, and so on. -/
def Obligations.DecodeByFields : Prop :=
  ∀ (w : CmdWord) (p : List Byte), decodeCommand w p =
    let n := w.toNat
    if n % 16 = 1 then
      if n / 262144 = 0 then .ok (.init (BitVec.ofNat 7 (n / 16 % 128)) (BitVec.ofNat 7 (n / 2048 % 128)) p)
      else .error .reservedBits
    else if n % 16 = 2 then .ok (.absorb (BitVec.ofNat 28 (n / 16)) p)
    else if n % 16 = 3 then if n / 16 = 0 then .ok (.finalize p) else .error .reservedBits
    else .error (.reservedOpcode (BitVec.ofNat 4 (n % 16)))

/-- The words the spec writes out for its examples decode as it says (30_encoding.md R83; 40_initialize.md
R108, R109; 41_absorb.md R129; 43_finalize.md R180; 95_test_vectors.md section 7.2). -/
def Obligations.ExampleWordsDecode : Prop :=
  decodeCommand 0x00000401#32 [] = .ok (.init 64 0 []) ∧
  decodeCommand 0x00001A01#32 [0x6B, 0x65, 0x79] = .ok (.init 32 3 [0x6B, 0x65, 0x79]) ∧
  (∀ key, decodeCommand 0x00020401#32 key = .ok (.init 64 64 key)) ∧
  decodeCommand 0x00000032#32 [0x61, 0x62, 0x63] = .ok (.absorb 3 [0x61, 0x62, 0x63]) ∧
  decodeCommand 0x00000003#32 [] = .ok (.finalize []) ∧
  decodeCommand 0x00000000#32 [] = .error (.reservedOpcode 0) ∧
  decodeCommand 0x00040401#32 [] = .error .reservedBits ∧
  decodeCommand 0x00000013#32 [] = .error .reservedBits

/-- 20_memory.md R55: on a byte transport the first byte carries bits 7..0, and the word is read back. -/
def Obligations.CommandWordBytesAreLittleEndian : Prop :=
  ∀ w : CmdWord, ∃ b0 b1 b2 b3 : Byte,
    bytesOfWord w = [b0, b1, b2, b3] ∧ wordOfBytes b0 b1 b2 b3 = w ∧
    w.toNat = b0.toNat + 256 * b1.toNat + 65536 * b2.toNat + 16777216 * b3.toNat

/-- 30_encoding.md R83, R84: the text of a command stands for the word of that command with its payload, and an
ABSORB of any length for ABSORBs of at most 268435455 bytes that carry the same bytes in order. -/
def Obligations.AssemblerExpands : Prop :=
  (∀ (o : Nat) (key : List Byte), o < 128 → key.length < 128 →
    asmInit o key = initInput (BitVec.ofNat 7 o) (BitVec.ofNat 7 key.length) key) ∧
  (∀ data : List Byte, data.length ≤ 268435455 → asmAbsorb data = [absorbInput data]) ∧
  (∀ data : List Byte, ∃ ds : List (List Byte), asmAbsorb data = ds.map absorbInput ∧ ds.flatten = data ∧
    ∀ d ∈ ds, d.length ≤ 268435455) ∧
  asmFinalize = finalizeInput

/-! ## The step and its checks -/

/-- A step runs the decoded command: it takes the command from the host's inputs and is `exec` of it (R205). -/
def Obligations.StepRunsDecodedCommand : Prop :=
  ∀ (s : State) (w : CmdWord) (p : List Byte) (rest : List Input) (i : Instr),
    s.inputs = .command w p :: rest → decodeCommand w p = .ok i → step s = exec i { s with inputs := rest }

/-- A table word placed next is what the next step runs (log 14). -/
def Obligations.PlacedWordRunsNext : Prop :=
  ∀ (s : State) (nbits w : Nat) (i : Instr),
    decodeTableWord nbits w = some i → step (s.withFetchWord nbits w) = exec i s

/-- The model's choice (log 2): with nothing presented, the state is kept (60_exceptions.md R213). -/
def Obligations.IdleCoreKeepsItsState : Prop :=
  ∀ s : State, s.inputs = [] → step s = .next s

/-- 60_exceptions.md R202, R206: a reserved OP or a set reserved bit takes IllegalCommand, whatever the
payload. -/
def Obligations.IllegalWordTakesIllegalCommand : Prop :=
  ∀ (s : State) (w : CmdWord) (p : List Byte) (rest : List Input),
    s.inputs = .command w p :: rest → s.phase ≠ .faulted →
    (w.toNat % 16 = 0 ∨ 4 ≤ w.toNat % 16 ∨ (w.toNat % 16 = 1 ∧ w.toNat / 262144 ≠ 0) ∨
      (w.toNat % 16 = 3 ∧ w.toNat / 16 ≠ 0)) →
    step s = .next { s with inputs := rest, phase := .faulted, fault := 2,
                            responses := s.responses ++ [⟨.illegalCommand, []⟩] }

/-- 60_exceptions.md R204, R206: a payload of another length than declared takes PayloadMismatch; KEYLEN
counts even when it is over 64. -/
def Obligations.WrongPayloadTakesPayloadMismatch : Prop :=
  ∀ s : State, s.phase ≠ .faulted →
    let mismatch : State := { s with phase := .faulted, fault := 4,
                                     responses := s.responses ++ [⟨.payloadMismatch, []⟩] }
    (∀ (o k : BitVec 7) (key : List Byte), key.length ≠ k.toNat → exec (.init o k key) s = .next mismatch) ∧
    (∀ (n : BitVec 28) (data : List Byte), data.length ≠ n.toNat → exec (.absorb n data) s = .next mismatch) ∧
    (∀ p : List Byte, p ≠ [] → exec (.finalize p) s = .next mismatch)

/-- 60_exceptions.md R203, R206: ABSORB and FINALIZE outside an ACTIVE session take SessionMisuse; INIT never
does. -/
def Obligations.MisuseTakesSessionMisuse : Prop :=
  ∀ s : State, s.phase = .uninit ∨ s.phase = .terminal →
    let misuse : State := { s with phase := .faulted, fault := 3,
                                   responses := s.responses ++ [⟨.sessionMisuse, []⟩] }
    (∀ (n : BitVec 28) (data : List Byte), data.length = n.toNat → exec (.absorb n data) s = .next misuse) ∧
    exec (.finalize []) s = .next misuse ∧
    (∀ (o k : BitVec 7) (key : List Byte), key.length = k.toNat →
      ∃ t, exec (.init o k key) s = .next t ∧ t.phase ≠ .faulted)

/-- 60_exceptions.md R206: a command that enters FAULTED writes FAULT and PHASE and nothing else, with a code
in 2, 3, 4, and answers `(code, [])`. -/
def Obligations.FaultEntryWritesFaultAndPhaseOnly : Prop :=
  ∀ (s t : State) (w : CmdWord) (p : List Byte) (rest : List Input),
    s.inputs = .command w p :: rest → s.phase ≠ .faulted → step s = .next t → t.phase = .faulted →
    ∃ st : Status, (st.code = 2 ∨ st.code = 3 ∨ st.code = 4) ∧
      t = { s with inputs := rest, phase := .faulted, fault := st.code,
                   responses := s.responses ++ [⟨st, []⟩] }

/-- 60_exceptions.md R207: while FAULTED every command is answered with `(FAULT, [])` and writes nothing, and
no input but reset leaves FAULTED or changes FAULT. -/
def Obligations.FaultedCoreOnlyAnswersItsFault : Prop :=
  (∀ (s : State) (w : CmdWord) (p : List Byte) (rest : List Input) (st : Status),
    s.inputs = .command w p :: rest → s.phase = .faulted → s.fault = st.code →
    step s = .next { s with inputs := rest, responses := s.responses ++ [⟨st, []⟩] }) ∧
  (∀ s t : State, s.phase = .faulted → s.inputs.head? ≠ some .reset → step s = .next t →
    t.phase = .faulted ∧ t.fault = s.fault)

/-- The model's choice (log 9; 93_implementation_defined.md U12): a reserved code in FAULT, which nothing
writes, is refused by name. -/
def Obligations.ReservedFaultCodeIsRefused : Prop :=
  ∀ (s : State) (i : Instr), s.phase = .faulted → 5 ≤ s.fault.toNat →
    exec i s = .refused (.reservedStatus s.fault)

/-- 60_exceptions.md R205: the status of a command's response is the first check that applies, in the order
FAULTED, IllegalCommand, PayloadMismatch, SessionMisuse, InvalidParameter, else OK; and unless it is OK no
session register is written. The premise is the invariant, and the state of a response always exists. -/
def Obligations.StatusFollowsPriority : Prop :=
  ∀ (s : State) (w : CmdWord) (p : List Byte) (rest : List Input),
    s.Inv → s.inputs = .command w p :: rest →
    let n := w.toNat
    let op := n % 16
    let outlen := n / 16 % 128
    let keylen := n / 2048 % 128
    let declared := if op = 1 then keylen else if op = 2 then n / 16 else 0
    ∃ (t : State) (st : Status) (data : List Byte),
      step s = .next t ∧ t.inputs = rest ∧ t.responses = s.responses ++ [⟨st, data⟩] ∧
      st.code = (if s.phase = .faulted then s.fault
        else if op = 0 ∨ 4 ≤ op ∨ (op = 1 ∧ n / 262144 ≠ 0) ∨ (op = 3 ∧ n / 16 ≠ 0) then 2
        else if p.length ≠ declared then 4
        else if (op = 2 ∨ op = 3) ∧ s.phase ≠ .active then 3
        else if op = 1 ∧ ¬(1 ≤ outlen ∧ outlen ≤ 64 ∧ keylen ≤ 64) then 1
        else 0) ∧
      (st ≠ .ok → t.h = s.h ∧ t.tLo = s.tLo ∧ t.tHi = s.tHi ∧ t.buf = s.buf ∧ t.cursor = s.cursor ∧
        t.outlen = s.outlen)

/-- 30_encoding.md R70: each command is consumed and answered with one response, whose data is the digest for
a successful FINALIZE and empty otherwise. The premise is the invariant. -/
def Obligations.OneResponsePerCommand : Prop :=
  ∀ (s : State) (w : CmdWord) (p : List Byte) (rest : List Input),
    s.Inv → s.inputs = .command w p :: rest →
    ∃ (t : State) (r : Response),
      step s = .next t ∧ t.inputs = rest ∧ t.responses = s.responses ++ [r] ∧
      r.data = (if r.status = .ok ∧ w = 0x00000003#32 then (serialize t.h).take s.outlen.toNat else [])

/-- 10_state.md R26: OUTLEN is written by a successful INIT only (the reset input apart, log 5). -/
def Obligations.OutlenWrittenByInitOnly : Prop :=
  ∀ s t : State, s.inputs.head? ≠ some .reset → step s = .next t → t.outlen ≠ s.outlen →
    ∃ (w : CmdWord) (p : List Byte) (rest : List Input) (k : BitVec 7),
      s.inputs = .command w p :: rest ∧ decodeCommand w p = .ok (.init t.outlen k p) ∧
      1 ≤ t.outlen.toNat ∧ t.outlen.toNat ≤ 64 ∧ t.phase = .active ∧
      t.responses = s.responses ++ [⟨.ok, []⟩]

/-! ## Reset -/

/-- 10_state.md R38: after reset PHASE is UNINIT, FAULT is 0 and no buffer byte is written. The zeros of `h`,
`t`, `cursor` and OUTLEN and the empty channels are the model's choice (log 1, log 3). -/
def Obligations.ResetLeaves : Prop :=
  State.reset.phase = .uninit ∧ State.reset.fault = 0 ∧ (∀ i, State.reset.buf.read i = none) ∧
  (∀ i : Fin 8, State.reset.h[i] = 0) ∧ State.reset.counter = 0 ∧ State.reset.cursor = 0 ∧
  State.reset.outlen = 0 ∧ State.reset.inputs = [] ∧ State.reset.responses = []

/-- 70_reset_and_hazards.md R230: the reset input sets PHASE to UNINIT and FAULT to 0 from any state, and
leaves the rest as reset leaves it (the model's values for it: log 3, log 5); it gives no response. -/
def Obligations.ResetInputResets : Prop :=
  ∀ (s : State) (rest : List Input), s.inputs = .reset :: rest →
    step s = .next { State.reset with inputs := rest, responses := s.responses }

/-! ## INIT -/

/-- 40_initialize.md R100: what INIT does once the common checks have passed, in any PHASE but FAULTED. -/
def Obligations.InitEffect : Prop :=
  ∀ (s : State) (o k : BitVec 7) (key : List Byte), s.phase ≠ .faulted → key.length = k.toNat →
    (1 ≤ o.toNat ∧ o.toNat ≤ 64 ∧ k.toNat ≤ 64 →
      ∃ m : Memory,
        exec (.init o k key) s = .next { s with
          h := iv.set 0 (iv[0] ^^^ (0x01010000#64 ^^^ (k.setWidth 64 <<< 8) ^^^ o.setWidth 64))
          tLo := 0, tHi := 0
          cursor := if k = 0 then 0 else 128
          outlen := o, buf := m, phase := .active
          responses := s.responses ++ [⟨.ok, []⟩] } ∧
        (k = 0 → m = s.buf) ∧
        (k ≠ 0 → ∀ i, m.read i = if i < 128 then some (key.getD i 0) else s.buf.read i)) ∧
    (¬(1 ≤ o.toNat ∧ o.toNat ≤ 64 ∧ k.toNat ≤ 64) →
      exec (.init o k key) s = .next { s with responses := s.responses ++ [⟨.invalidParameter, []⟩] })

/-- 40_initialize.md R103: the byte layout of `P`, and `h` after INIT. -/
def Obligations.ParameterWordSeedsHash : Prop :=
  ∀ o k : BitVec 7,
    let P := parameterWord o k
    P = 0x01010000#64 ^^^ (k.setWidth 64 <<< 8) ^^^ o.setWidth 64 ∧
    P.toNat = o.toNat + 256 * k.toNat + 65536 + 16777216 ∧
    ∀ (s : State) (key : List Byte), s.phase ≠ .faulted → key.length = k.toNat →
      1 ≤ o.toNat → o.toNat ≤ 64 → k.toNat ≤ 64 →
      ∃ t, exec (.init o k key) s = .next t ∧ t.h[0] = iv[0] ^^^ P ∧
        ∀ i : Fin 8, i ≠ 0 → t.h[i] = iv[i]

/-- 40_initialize.md R101, R102: a word with OUTLEN in 0, 65..127 or KEYLEN in 65..127 is answered with
InvalidParameter, writes nothing and enters no fault. -/
def Obligations.FailingInitMutatesNothing : Prop :=
  ∀ (s : State) (w : CmdWord) (p : List Byte) (rest : List Input),
    s.inputs = .command w p :: rest → s.phase ≠ .faulted →
    w.toNat % 16 = 1 → w.toNat / 262144 = 0 → p.length = w.toNat / 2048 % 128 →
    (w.toNat / 16 % 128 = 0 ∨ 65 ≤ w.toNat / 16 % 128 ∨ 65 ≤ w.toNat / 2048 % 128) →
    step s = .next { s with inputs := rest, responses := s.responses ++ [⟨.invalidParameter, []⟩] }

/-- 40_initialize.md R104: a keyed INIT loads the padded key as a pending block and compresses nothing; the
next ABSORB byte compresses it as a non-final block with `t = 128`, and a FINALIZE instead compresses it as the
final block with `t = 128`. -/
def Obligations.KeyBlockIsDeferred : Prop :=
  ∀ (s : State) (o k : BitVec 7) (key : List Byte), s.phase ≠ .faulted → key.length = k.toNat →
    1 ≤ o.toNat → o.toNat ≤ 64 → 1 ≤ k.toNat → k.toNat ≤ 64 →
    let block := key ++ List.replicate (128 - key.length) 0
    ∃ t, exec (.init o k key) s = .next t ∧ t.h = initialHash o k ∧ t.counter = 0 ∧ t.cursor = 128 ∧
      t.pending = block ∧
      (∀ b : Byte, ∃ u, exec (.absorb 1 [b]) t = .next u ∧
        u.h = compress (initialHash o k) (messageWords block) 128 0 false ∧ u.counter = 128 ∧
        u.pending = [b]) ∧
      (∃ u, exec (.finalize []) t = .next u ∧
        u.h = compress (initialHash o k) (messageWords block) 128 0 true ∧ u.counter = 128)

/-! ## ABSORB -/

/-- 41_absorb.md R121: the byte step, with room in the buffer and on a full buffer; and R120: its use on a
payload in order in an ACTIVE session, and ABSORB in UNINIT or TERMINAL. -/
def Obligations.ByteStep : Prop :=
  (∀ (s : State) (b : Byte), s.cursor.toNat < 128 →
    absorbByte b s = .ok { s with buf := s.buf.write s.cursor.toNat b, cursor := s.cursor + 1 }) ∧
  (∀ (s : State) (b : Byte), s.cursor = 128 → (∀ j < 128, (s.buf.read j).isSome) →
    let t := s.counter + 128
    absorbByte b s = .ok { s with
      tLo := t.extractLsb' 0 64, tHi := t.extractLsb' 64 64
      h := compress s.h (messageWords s.pending) (t.extractLsb' 0 64) (t.extractLsb' 64 64) false
      buf := s.buf.write 0 b, cursor := 1 }) ∧
  (∀ (s : State) (n : BitVec 28) (data : List Byte), s.phase = .active → data.length = n.toNat →
    exec (.absorb n data) s =
      match data.foldlM (fun u b => absorbByte b u) s with
      | .ok t => .next { t with responses := t.responses ++ [⟨.ok, []⟩] }
      | .error f => .fault f) ∧
  (∀ (s : State) (n : BitVec 28) (data : List Byte), s.phase = .uninit ∨ s.phase = .terminal →
    data.length = n.toNat → exec (.absorb n data) s = .next { s with
      phase := .faulted, fault := 3, responses := s.responses ++ [⟨.sessionMisuse, []⟩] })

/-- 41_absorb.md R126, block by block: with `c` pending bytes and `n` payload bytes, ABSORB performs
`k = (c + n - 1) / 128` compressions, each with `last = 0` and the counter advanced first, of the first `128 k`
bytes of the pending bytes followed by the payload, and holds the rest back. The premise is the invariant. -/
def Obligations.AbsorbCompressesFullBlocks : Prop :=
  ∀ (s : State) (len : BitVec 28) (data : List Byte), s.Inv → s.phase = .active → data.length = len.toNat →
    let c := s.cursor.toNat
    let n := data.length
    let k := (c + n - 1) / 128
    ∃ t, exec (.absorb len data) s = .next t ∧
      (t.h, t.counter) = compressBlocks k (s.h, s.counter) (s.pending ++ data) ∧
      t.counter = s.counter + BitVec.ofNat 128 (128 * k) ∧
      t.pending = (s.pending ++ data).drop (128 * k) ∧
      (1 ≤ n → t.cursor.toNat = (c + n - 1) % 128 + 1) ∧
      (n = 0 → t = { s with responses := s.responses ++ [⟨.ok, []⟩] }) ∧
      t.phase = .active ∧ t.fault = s.fault ∧ t.outlen = s.outlen ∧ t.inputs = s.inputs ∧
      t.responses = s.responses ++ [⟨.ok, []⟩]

/-- 41_absorb.md R125: two ways of cutting the same bytes into ABSORB payloads leave the same registers, every
command answered OK. The premise is the invariant. -/
def Obligations.ChunkingInvariance : Prop :=
  ∀ (s : State) (ds es : List (List Byte)), s.Inv → s.phase = .active →
    (∀ d ∈ ds, d.length < 268435456) → (∀ e ∈ es, e.length < 268435456) → ds.flatten = es.flatten →
    ∃ t u : State,
      Sys2Proof.core.run ds.length (s.setInputs (ds.map absorbInput)) = .next t ∧
      Sys2Proof.core.run es.length (s.setInputs (es.map absorbInput)) = .next u ∧
      t.registers = u.registers ∧
      t.responses = s.responses ++ List.replicate ds.length ⟨.ok, []⟩ ∧
      u.responses = s.responses ++ List.replicate es.length ⟨.ok, []⟩

/-- 41_absorb.md R122: the counter add is addition modulo 2^128 on the two words, and touches nothing else. -/
def Obligations.CounterAddIs128Bit : Prop :=
  ∀ (s : State) (n : Word), n.toNat ≤ 128 →
    (s.counterAdd n).counter = s.counter + n.setWidth 128 ∧
    s.counterAdd n = { s with tLo := s.tLo + n
                              tHi := s.tHi + if 18446744073709551616 ≤ s.tLo.toNat + n.toNat then 1 else 0 }

/-- The frame of ABSORB (41_absorb.md R120, R121): PHASE, FAULT, OUTLEN and the host's inputs are kept, one OK
response is added, every byte but those at `(cursor + j) mod 128` for payload byte `j` reads as before, and
`h` and `t` change only if a full buffer meets a byte. -/
def Obligations.AbsorbFrame : Prop :=
  ∀ (s t : State) (len : BitVec 28) (data : List Byte), s.phase = .active → data.length = len.toNat →
    exec (.absorb len data) s = .next t →
    t.phase = .active ∧ t.fault = s.fault ∧ t.outlen = s.outlen ∧ t.inputs = s.inputs ∧
    t.responses = s.responses ++ [⟨.ok, []⟩] ∧
    (∀ a, (∀ j < data.length, a ≠ (s.cursor.toNat + j) % 128) → t.buf.read a = s.buf.read a) ∧
    (s.cursor.toNat + data.length ≤ 128 → t.h = s.h ∧ t.tLo = s.tLo ∧ t.tHi = s.tHi)

/-- The model's stop (log 6): a cursor value that no command leaves indexes no buffer byte. -/
def Obligations.CursorPastBufferFaults : Prop :=
  ∀ (s : State) (len : BitVec 28) (data : List Byte), s.phase = .active → data.length = len.toNat →
    data ≠ [] → 128 < s.cursor.toNat → exec (.absorb len data) s = .fault (.bufferRange s.cursor.toNat)

/-! ## FINALIZE -/

/-- 43_finalize.md R180 (with R181 to R185): FINALIZE in an ACTIVE session whose pending bytes are written, and
in UNINIT or TERMINAL. -/
def Obligations.FinalizeEffect : Prop :=
  ∀ s : State,
    (s.phase = .active → s.outlen.toNat ≤ 64 → s.cursor.toNat ≤ 128 →
        (∀ i < s.cursor.toNat, (s.buf.read i).isSome) →
      let t := s.counter + s.cursor.setWidth 128
      let block := s.pending ++ List.replicate (128 - s.cursor.toNat) 0
      let hash := compress s.h (messageWords block) (t.extractLsb' 0 64) (t.extractLsb' 64 64) true
      ∃ m : Memory,
        exec (.finalize []) s = .next { s with
          h := hash, tLo := t.extractLsb' 0 64, tHi := t.extractLsb' 64 64, buf := m, phase := .terminal
          responses := s.responses ++ [⟨.ok, (serialize hash).take s.outlen.toNat⟩] } ∧
        ∀ i, m.read i = if s.cursor.toNat ≤ i ∧ i < 128 then some 0 else s.buf.read i) ∧
    (s.phase = .uninit ∨ s.phase = .terminal →
      exec (.finalize []) s = .next { s with
        phase := .faulted, fault := 3, responses := s.responses ++ [⟨.sessionMisuse, []⟩] })

/-- 20_memory.md R52, 43_finalize.md R184: the digest is OUTLEN bytes, byte `8 i + j` being bits
`8 j + 7 .. 8 j` of `h[i]`. The premise is the invariant. -/
def Obligations.DigestIsLittleEndian : Prop :=
  ∀ s : State, s.Inv → s.phase = .active →
    ∃ (t : State) (d : List Byte), exec (.finalize []) s = .next t ∧
      t.responses = s.responses ++ [⟨.ok, d⟩] ∧ d.length = s.outlen.toNat ∧
      ∀ i j : Fin 8, 8 * i.val + j.val < s.outlen.toNat →
        d[8 * i.val + j.val]? = some (t.h[i].extractLsb' (8 * j.val) 8)

/-- 43_finalize.md R189 (a), 90_conflicts.md C2: an unkeyed session with no data compresses one all-zero block
with `t = 0` and `last = 1`. -/
def Obligations.EmptySessionCompressesZeroBlock : Prop :=
  ∀ (s : State) (o : BitVec 7), s.phase ≠ .faulted → 1 ≤ o.toNat → o.toNat ≤ 64 →
    ∃ t u, exec (.init o 0 []) s = .next t ∧ exec (.finalize []) t = .next u ∧
      u.h = compress (initialHash o 0) (Vector.replicate 16 0) 0 0 true ∧ u.counter = 0 ∧
      u.phase = .terminal

/-! ## COMPRESS and G -/

/-- 00_scope.md R10, 42_compress.md R142 (e): `rotr` is rotation within 64 bits, and by 63 it is a left
rotation by 1. -/
def Obligations.RotationWithin64Bits : Prop :=
  (∀ (x : Word) (n : Nat), 0 < n → n < 64 → rotr x n = x.rotateRight n) ∧
  ∀ x : Word, rotr x 63 = x.rotateLeft 1

/-- 20_memory.md R51: the message words are the block's bytes, least significant byte first. -/
def Obligations.MessageWordsAreLittleEndian : Prop :=
  ∀ (block : List Byte) (i : Fin 16) (j : Fin 8), block.length = 128 →
    some ((messageWords block)[i].extractLsb' (8 * j.val) 8) = block[8 * i.val + j.val]?

/-- 42_compress.md R141: G on four distinct indices, in one expression for each word, and nothing else
changed. -/
def Obligations.MixingPrimitive : Prop :=
  ∀ (q : Quad) (x y : Word) (v : Vector Word 16),
    let a1 := v[q.a] + v[q.b] + x
    let d1 := (v[q.d] ^^^ a1).rotateRight 32
    let c1 := v[q.c] + d1
    let b1 := (v[q.b] ^^^ c1).rotateRight 24
    let a2 := a1 + b1 + y
    let d2 := (d1 ^^^ a2).rotateRight 16
    let c2 := c1 + d2
    let b2 := (b1 ^^^ c2).rotateRight 63
    let r := mixG q x y v
    r[q.a] = a2 ∧ r[q.b] = b2 ∧ r[q.c] = c2 ∧ r[q.d] = d2 ∧
    ∀ i : Fin 16, i ≠ q.a → i ≠ q.b → i ≠ q.c → i ≠ q.d → r[i] = v[i]

/-- 42_compress.md R149: G calls on disjoint quadruples commute, and the column calls of a round are pairwise
disjoint, as are its diagonal calls. -/
def Obligations.LanesOfAHalfRoundCommute : Prop :=
  (∀ (p q : Quad) (x y z w : Word) (v : Vector Word 16),
    (∀ i ∈ [p.a, p.b, p.c, p.d], i ∉ [q.a, q.b, q.c, q.d]) →
    mixG p x y (mixG q z w v) = mixG q z w (mixG p x y v)) ∧
  ∀ half ∈ [[column0, column1, column2, column3], [diagonal0, diagonal1, diagonal2, diagonal3]],
    half.Pairwise fun p q => ∀ i ∈ [p.a, p.b, p.c, p.d], i ∉ [q.a, q.b, q.c, q.d]

/-- 10_state.md R31: every row of SIGMA is a permutation of 0..15, and rows 10 and 11 are rows 0 and 1. -/
def Obligations.SigmaRowsArePermutations : Prop :=
  (∀ r : Fin 12, ∀ i : Fin 16, i ∈ sigma[r].toList) ∧ sigma[10] = sigma[0] ∧ sigma[11] = sigma[1]

/-- 42_compress.md R146: the working vector before round 0. -/
def Obligations.WorkingVectorSetUp : Prop :=
  ∀ (h : Vector Word 8) (tLo tHi : Word) (last : Bool),
    let v := workingVector h tLo tHi last
    (∀ i : Fin 8, v[i.val] = h[i]) ∧ (∀ i : Fin 8, i.val < 4 → v[i.val + 8] = iv[i]) ∧
    v[12] = iv[4] ^^^ tLo ∧ v[13] = iv[5] ^^^ tHi ∧
    v[14] = (if last then ~~~iv[6] else iv[6]) ∧ v[15] = iv[7]

/-- 42_compress.md R143, R144, R147, R148: COMPRESS is twelve rounds of eight G calls on the quadruples R143's
formula gives, with the message words SIGMA selects, then the feed-forward. -/
def Obligations.CompressFollowsSchedule : Prop :=
  ∀ quads : Fin 8 → Quad,
    (∀ k : Fin 8, k.val < 4 → (quads k).a.val = k.val ∧ (quads k).b.val = 4 + k.val ∧
      (quads k).c.val = 8 + k.val ∧ (quads k).d.val = 12 + k.val) →
    (∀ k : Fin 8, 4 ≤ k.val → (quads k).a.val = k.val - 4 ∧ (quads k).b.val = 4 + (k.val - 4 + 1) % 4 ∧
      (quads k).c.val = 8 + (k.val - 4 + 2) % 4 ∧ (quads k).d.val = 12 + (k.val - 4 + 3) % 4) →
    ∀ (h : Vector Word 8) (m : Vector Word 16) (tLo tHi : Word) (last : Bool),
      let v := (List.finRange 12).foldl (fun v r => (List.finRange 8).foldl (fun v k =>
        mixG (quads k) m[sigma[r][2 * k.val]] m[sigma[r][2 * k.val + 1]] v) v)
        (workingVector h tLo tHi last)
      ∀ i : Fin 8, (compress h m tLo tHi last)[i] = h[i] ^^^ v[i.val] ^^^ v[i.val + 8]

/-- The model's stop (10_state.md R38, log 4): COMPRESS of a buffer with an unwritten byte faults. -/
def Obligations.UnwrittenByteStopsCompress : Prop :=
  ∀ (s : State) (last : Bool) (j : Nat), j < 128 → s.buf.read j = none →
    ∃ i ≤ j, compressBuf last s = .error (.bufferUnwritten i)

/-! ## The whole machine -/

/-- The state after reset meets the invariant. -/
def Obligations.ResetMeetsInvariant : Prop := State.reset.Inv

/-- 10_state.md R25, R26, R29, R37: every step keeps the invariant, from any state that meets it. -/
def Obligations.StepKeepsInvariant : Prop :=
  ∀ s t : State, s.Inv → step s = .next t → t.Inv

/-- 10_state.md R38, 20_memory.md R64, 60_exceptions.md R208: from any state that meets the invariant a step
answers: no unwritten byte is read, no index leaves the buffer, no reserved code is seen. -/
def Obligations.StepNeverStops : Prop :=
  ∀ s : State, s.Inv → ∃ t, step s = .next t

/-- 10_state.md R24, R38, 20_memory.md R64, 43_finalize.md R185: what differs between two states only in a
register or a buffer byte that the spec says is never observed makes no difference: the steps answer alike and
the states go on agreeing, so every later response is the same. It covers the values log 3 and log 5 choose. -/
def Obligations.UnspecifiedValuesAreNeverObserved : Prop :=
  ∀ s u : State, s.Inv → u.Inv → s.Agree u →
    ∃ s' u', step s = .next s' ∧ step u = .next u' ∧ s'.Agree u'

/-- 00_scope.md R2, 41_absorb.md R125, 43_finalize.md R187: a session (INIT, any ABSORBs, FINALIZE), from any
state that is not FAULTED, answers OK throughout and returns BLAKE2b of the concatenated payloads, as one
function of the message; nothing of the state before it matters. -/
def Obligations.SessionComputesBlake2b : Prop :=
  ∀ (s : State) (o k : BitVec 7) (key : List Byte) (ds : List (List Byte)),
    s.phase ≠ .faulted → key.length = k.toNat → 1 ≤ o.toNat → o.toNat ≤ 64 → k.toNat ≤ 64 →
    (∀ d ∈ ds, d.length < 268435456) →
    ∃ t : State,
      Sys2Proof.core.run (ds.length + 2)
        (s.setInputs (initInput o k key :: ds.map absorbInput ++ [finalizeInput])) = .next t ∧
      t.phase = .terminal ∧ t.inputs = [] ∧
      t.responses = s.responses ++ List.replicate (ds.length + 1) ⟨.ok, []⟩ ++
        [⟨.ok, blake2b o k key ds.flatten⟩]

/-- 30_encoding.md R84, 00_scope.md R2: the pseudo-command HASH, whatever the data's length, from any state that is
not FAULTED, ends with BLAKE2b of the data in the last response. -/
def Obligations.HashPseudoCommandHashes : Prop :=
  ∀ (s : State) (o : Nat) (key data : List Byte), s.phase ≠ .faulted → 1 ≤ o → o ≤ 64 → key.length ≤ 64 →
    ∃ t : State,
      Sys2Proof.core.run (asmHash o key data).length (s.setInputs (asmHash o key data)) = .next t ∧
      t.phase = .terminal ∧ t.inputs = [] ∧
      t.responses.getLast? = some ⟨.ok, blake2b (BitVec.ofNat 7 o) (BitVec.ofNat 7 key.length) key data⟩

/-- 43_finalize.md R187: a session of the machine, from any state that is not FAULTED. With `kk` key bytes and `D`
data bytes it performs `N = max(1, ceil((128 [kk > 0] + D) / 128))` compressions: INIT and the ABSORBs leave the
chaining state that exactly `N - 1` of them with `last = 0` give and the counter `128 (N - 1)`, and FINALIZE performs
one more with `last = 1`, which sees `t = (128 [kk > 0] + D) mod 2^128`. The one-go hash `blake2b` of Safety.lean,
whose non-final compressions are `fullBlocks`, performs as many and serializes the same chaining state. -/
def Obligations.CompressionCount : Prop :=
  ∀ (s : State) (o k : BitVec 7) (key : List Byte) (ds : List (List Byte)),
    s.phase ≠ .faulted → key.length = k.toNat → 1 ≤ o.toNat → o.toNat ≤ 64 → k.toNat ≤ 64 →
    (∀ d ∈ ds, d.length < 268435456) →
    let stream := sessionStream key ds.flatten
    let total := (if key = [] then 0 else 128) + ds.flatten.length
    let count := max 1 ((total + 127) / 128)
    stream.length = total ∧ fullBlocks stream + 1 = count ∧ total - 128 * fullBlocks stream ≤ 128 ∧
    ∃ t u : State,
      Sys2Proof.core.run (ds.length + 1) (s.setInputs (initInput o k key :: ds.map absorbInput)) = .next t ∧
      t.phase = .active ∧
      (t.h, t.counter) = compressBlocks (count - 1) (initialHash o k, 0) stream ∧
      t.counter = BitVec.ofNat 128 (128 * (count - 1)) ∧
      t.pending = stream.drop (128 * (count - 1)) ∧
      exec (.finalize []) t = .next u ∧
      u.phase = .terminal ∧
      u.counter = BitVec.ofNat 128 total ∧
      u.h = compress t.h (messageWords (t.pending ++ List.replicate (128 - t.pending.length) 0)) u.tLo u.tHi true ∧
      blake2b o k key ds.flatten = (serialize u.h).take o.toNat
end

