-- ==== Sys2Proof/Laws/Bits.lean ====
section
/-! SUPPORT. A little-endian load as a concatenation of its bytes (00_scope.md R11). -/

namespace Sys2Proof.Machine

/-- The sum of R11 is the eight bytes side by side, the last one most significant. -/
theorem loadLE64_eq_append (bytes : List Byte) (off : Nat) :
    loadLE64 bytes off =
      bytes.getD (off + 7) 0 ++ bytes.getD (off + 6) 0 ++ bytes.getD (off + 5) 0 ++ bytes.getD (off + 4) 0 ++
      bytes.getD (off + 3) 0 ++ bytes.getD (off + 2) 0 ++ bytes.getD (off + 1) 0 ++
      bytes.getD (off + 0) 0 := by
  apply BitVec.eq_of_toNat_eq
  simp only [loadLE64, byteAt, BitVec.toNat_add, BitVec.toNat_shiftLeft, BitVec.toNat_setWidth,
    BitVec.toNat_append]
  have h := fun j => (bytes.getD (off + j) 0).isLt
  have h0 := h 0
  have h1 := h 1
  have h2 := h 2
  have h3 := h 3
  have h4 := h 4
  have h5 := h 5
  have h6 := h 6
  have h7 := h 7
  rw [← Nat.shiftLeft_add_eq_or_of_lt h6, ← Nat.shiftLeft_add_eq_or_of_lt h5,
    ← Nat.shiftLeft_add_eq_or_of_lt h4, ← Nat.shiftLeft_add_eq_or_of_lt h3,
    ← Nat.shiftLeft_add_eq_or_of_lt h2, ← Nat.shiftLeft_add_eq_or_of_lt h1,
    ← Nat.shiftLeft_add_eq_or_of_lt h0]
  simp only [Nat.shiftLeft_eq]
  omega

end Sys2Proof.Machine
end

