-- ==== Sys2Proof/Laws/Memory.lean ====
section
/-! SUPPORT. The laws of memory in canonical form: read after write, the canonical form kept, and equal reads
mean equal data. -/

namespace Sys2Proof.Machine

@[simp] theorem Memory.read_nil (a : Nat) : Memory.read [] a = none := rfl

theorem Memory.read_cons (k : Nat) (b : Byte) (m : Memory) (a : Nat) :
    Memory.read ((k, b) :: m) a = if k = a then some b else Memory.read m a := rfl

/-- A read after a write: the byte written at its index, every other index as before. -/
theorem Memory.read_write (m : Memory) (a : Nat) (b : Byte) (i : Nat) :
    (m.write a b).read i = if i = a then some b else m.read i := by
  induction m with
  | nil => simp [Memory.write, Memory.read_cons, eq_comm]
  | cons c m ih =>
    obtain ⟨k, c⟩ := c
    simp only [Memory.write]
    split
    · simp [Memory.read_cons, eq_comm]
    · split
      · subst_vars
        by_cases h : k = i <;> simp [Memory.read_cons, h, eq_comm (a := i)]
      · rw [Memory.read_cons, Memory.read_cons, ih]
        by_cases h : k = i
        · subst h
          have : k ≠ a := by omega
          simp [this]
        · simp [h]

@[simp] theorem Memory.read_write_same (m : Memory) (a : Nat) (b : Byte) : (m.write a b).read a = some b := by
  simp [Memory.read_write]

theorem Memory.read_write_other (m : Memory) {a i : Nat} (b : Byte) (h : i ≠ a) :
    (m.write a b).read i = m.read i := by
  simp [Memory.read_write, h]

/-- Every cell after a write is the one written or was there before. -/
theorem Memory.mem_write {m : Memory} {a : Nat} {b : Byte} {c : Host.Cell} (h : c ∈ m.write a b) :
    c = (a, b) ∨ c ∈ m := by
  induction m with
  | nil => simpa [Memory.write] using h
  | cons d m ih =>
    obtain ⟨k, d⟩ := d
    simp only [Memory.write] at h
    split at h
    · simpa using h
    · split at h
      · rcases List.mem_cons.mp h with h | h
        · exact .inl h
        · exact .inr (List.mem_cons_of_mem _ h)
      · rcases List.mem_cons.mp h with h | h
        · exact .inr (h ▸ List.mem_cons_self)
        · exact (ih h).imp_right (List.mem_cons_of_mem _)

theorem Memory.wf_cons {k : Nat} {b : Byte} {m : Memory} :
    Memory.wf ((k, b) :: m) ↔ (∀ c ∈ m, k < c.1) ∧ Memory.wf m := by
  simp [Memory.wf, List.pairwise_cons]

/-- A write keeps the canonical form. -/
theorem Memory.write_wf {m : Memory} (h : m.wf) (a : Nat) (b : Byte) : (m.write a b).wf := by
  induction m with
  | nil => simp [Memory.write, Memory.wf]
  | cons d m ih =>
    obtain ⟨k, d⟩ := d
    rw [Memory.wf_cons] at h
    simp only [Memory.write]
    split
    · rename_i hlt
      refine Memory.wf_cons.mpr ⟨?_, Memory.wf_cons.mpr h⟩
      intro c hc
      rcases List.mem_cons.mp hc with rfl | hc
      · exact hlt
      · exact Nat.lt_trans hlt (h.1 c hc)
    · split
      · subst_vars
        exact Memory.wf_cons.mpr h
      · refine Memory.wf_cons.mpr ⟨?_, ih h.2⟩
        intro c hc
        rcases Memory.mem_write hc with rfl | hc
        · simp only; omega
        · exact h.1 c hc

/-- Writing consecutive bytes keeps the canonical form. -/
theorem Memory.writeList_wf {m : Memory} (h : m.wf) (a : Nat) (l : List Byte) : (m.writeList a l).wf := by
  induction l generalizing m a with
  | nil => exact h
  | cons b l ih => exact ih (Memory.write_wf h a b) (a + 1)

/-- Cells after writing consecutive bytes are old ones or lie in the range written. -/
theorem Memory.mem_writeList {m : Memory} {a : Nat} {l : List Byte} {c : Host.Cell}
    (h : c ∈ m.writeList a l) : (a ≤ c.1 ∧ c.1 < a + l.length) ∨ c ∈ m := by
  induction l generalizing m a with
  | nil => exact .inr h
  | cons b l ih =>
    rcases ih h with h | h
    · left; simp only [List.length_cons]; omega
    · rcases Memory.mem_write h with rfl | h
      · left; simp
      · exact .inr h

/-- A read after writing consecutive bytes. -/
theorem Memory.read_writeList (m : Memory) (a : Nat) (l : List Byte) (i : Nat) :
    (m.writeList a l).read i = if a ≤ i ∧ i < a + l.length then l[i - a]? else m.read i := by
  induction l generalizing m a with
  | nil =>
    have : ¬(a ≤ i ∧ i < a + ([] : List Byte).length) := by simp
    rw [if_neg this]
    rfl
  | cons b l ih =>
    rw [Memory.writeList, ih, Memory.read_write]
    simp only [List.length_cons]
    by_cases h1 : i = a
    · subst h1
      simp
    · by_cases h2 : a ≤ i ∧ i < a + (l.length + 1)
      · have h3 : a + 1 ≤ i ∧ i < a + 1 + l.length := by omega
        obtain ⟨d, rfl⟩ : ∃ d, i = a + 1 + d := ⟨i - (a + 1), by omega⟩
        have e : a + 1 + d - a = d + 1 := by omega
        rw [if_pos h3, if_pos h2, e]
        simp
      · have h3 : ¬(a + 1 ≤ i ∧ i < a + 1 + l.length) := by omega
        rw [if_neg h3, if_neg h2, if_neg h1]

/-- An index below every listed one reads as nothing. -/
theorem Memory.read_eq_none_of_lt {m : Memory} {i : Nat} (h : ∀ c ∈ m, i < c.1) : m.read i = none := by
  induction m with
  | nil => rfl
  | cons d m ih =>
    obtain ⟨k, d⟩ := d
    have hk : i < k := h (k, d) List.mem_cons_self
    rw [Memory.read_cons, if_neg (by omega)]
    exact ih fun c hc => h c (List.mem_cons_of_mem _ hc)

/-- Equal reads at every index mean equal data, for memories in canonical form. -/
theorem Memory.eq_of_read_eq {m n : Memory} (hm : m.wf) (hn : n.wf) (h : ∀ i, m.read i = n.read i) : m = n := by
  induction m generalizing n with
  | nil =>
    cases n with
    | nil => rfl
    | cons d n =>
      obtain ⟨l, d⟩ := d
      simpa [Memory.read_cons] using h l
  | cons c m ih =>
    obtain ⟨k, b⟩ := c
    cases n with
    | nil => simpa [Memory.read_cons] using h k
    | cons d n =>
      obtain ⟨l, d⟩ := d
      rw [Memory.wf_cons] at hm hn
      have hkl : k = l := by
        rcases Nat.lt_trichotomy k l with hlt | heq | hgt
        · have e := h k
          rw [Memory.read_cons, if_pos rfl, Memory.read_eq_none_of_lt (m := (l, d) :: n)] at e
          · simp at e
          · intro c hc
            rcases List.mem_cons.mp hc with rfl | hc
            · exact hlt
            · exact Nat.lt_trans hlt (hn.1 c hc)
        · exact heq
        · have e := h l
          rw [Memory.read_eq_none_of_lt (m := (k, b) :: m), Memory.read_cons, if_pos rfl] at e
          · simp at e
          · intro c hc
            rcases List.mem_cons.mp hc with rfl | hc
            · exact hgt
            · exact Nat.lt_trans hgt (hm.1 c hc)
      subst hkl
      have hb : b = d := by simpa [Memory.read_cons] using h k
      subst hb
      congr 1
      refine ih hm.2 hn.2 fun i => ?_
      by_cases hi : k = i
      · subst hi
        rw [Memory.read_eq_none_of_lt hm.1, Memory.read_eq_none_of_lt hn.1]
      · simpa [Memory.read_cons, hi] using h i

/-- A memory's listed cells are what it reads, in canonical form. -/
theorem Memory.lt_of_read_isSome {m : Memory} {n i : Nat} (h : ∀ c ∈ m, c.1 < n) (hi : (m.read i).isSome) :
    i < n := by
  induction m with
  | nil => simp at hi
  | cons d m ih =>
    obtain ⟨k, d⟩ := d
    rw [Memory.read_cons] at hi
    split at hi
    · subst_vars
      exact h (_, d) List.mem_cons_self
    · exact ih (fun c hc => h c (List.mem_cons_of_mem _ hc)) hi

end Sys2Proof.Machine
end

