-- ==== Sys2Proof/Laws/State.lean ====
section
/-! SUPPORT. One lemma per field per named update of `State`, each true by unfolding that update once. -/

namespace Sys2Proof.Machine

variable (s : State)

/-! ### State.respond -/
@[simp] theorem State.respond_phase (st : Status) (data : List Byte) : (s.respond st data).phase = s.phase := rfl
@[simp] theorem State.respond_fault (st : Status) (data : List Byte) : (s.respond st data).fault = s.fault := rfl
@[simp] theorem State.respond_h (st : Status) (data : List Byte) : (s.respond st data).h = s.h := rfl
@[simp] theorem State.respond_tLo (st : Status) (data : List Byte) : (s.respond st data).tLo = s.tLo := rfl
@[simp] theorem State.respond_tHi (st : Status) (data : List Byte) : (s.respond st data).tHi = s.tHi := rfl
@[simp] theorem State.respond_buf (st : Status) (data : List Byte) : (s.respond st data).buf = s.buf := rfl
@[simp] theorem State.respond_cursor (st : Status) (data : List Byte) : (s.respond st data).cursor = s.cursor := rfl
@[simp] theorem State.respond_outlen (st : Status) (data : List Byte) : (s.respond st data).outlen = s.outlen := rfl
@[simp] theorem State.respond_inputs (st : Status) (data : List Byte) : (s.respond st data).inputs = s.inputs := rfl
@[simp] theorem State.respond_responses (st : Status) (data : List Byte) : (s.respond st data).responses = s.responses ++ [⟨st, data⟩] := rfl

/-! ### State.setHash -/
@[simp] theorem State.setHash_phase (x : Vector Word 8) : (s.setHash x).phase = s.phase := rfl
@[simp] theorem State.setHash_fault (x : Vector Word 8) : (s.setHash x).fault = s.fault := rfl
@[simp] theorem State.setHash_h (x : Vector Word 8) : (s.setHash x).h = x := rfl
@[simp] theorem State.setHash_tLo (x : Vector Word 8) : (s.setHash x).tLo = s.tLo := rfl
@[simp] theorem State.setHash_tHi (x : Vector Word 8) : (s.setHash x).tHi = s.tHi := rfl
@[simp] theorem State.setHash_buf (x : Vector Word 8) : (s.setHash x).buf = s.buf := rfl
@[simp] theorem State.setHash_cursor (x : Vector Word 8) : (s.setHash x).cursor = s.cursor := rfl
@[simp] theorem State.setHash_outlen (x : Vector Word 8) : (s.setHash x).outlen = s.outlen := rfl
@[simp] theorem State.setHash_inputs (x : Vector Word 8) : (s.setHash x).inputs = s.inputs := rfl
@[simp] theorem State.setHash_responses (x : Vector Word 8) : (s.setHash x).responses = s.responses := rfl

/-! ### State.setBuf -/
@[simp] theorem State.setBuf_phase (m : Memory) : (s.setBuf m).phase = s.phase := rfl
@[simp] theorem State.setBuf_fault (m : Memory) : (s.setBuf m).fault = s.fault := rfl
@[simp] theorem State.setBuf_h (m : Memory) : (s.setBuf m).h = s.h := rfl
@[simp] theorem State.setBuf_tLo (m : Memory) : (s.setBuf m).tLo = s.tLo := rfl
@[simp] theorem State.setBuf_tHi (m : Memory) : (s.setBuf m).tHi = s.tHi := rfl
@[simp] theorem State.setBuf_buf (m : Memory) : (s.setBuf m).buf = m := rfl
@[simp] theorem State.setBuf_cursor (m : Memory) : (s.setBuf m).cursor = s.cursor := rfl
@[simp] theorem State.setBuf_outlen (m : Memory) : (s.setBuf m).outlen = s.outlen := rfl
@[simp] theorem State.setBuf_inputs (m : Memory) : (s.setBuf m).inputs = s.inputs := rfl
@[simp] theorem State.setBuf_responses (m : Memory) : (s.setBuf m).responses = s.responses := rfl

/-! ### State.setCursor -/
@[simp] theorem State.setCursor_phase (c : BitVec 8) : (s.setCursor c).phase = s.phase := rfl
@[simp] theorem State.setCursor_fault (c : BitVec 8) : (s.setCursor c).fault = s.fault := rfl
@[simp] theorem State.setCursor_h (c : BitVec 8) : (s.setCursor c).h = s.h := rfl
@[simp] theorem State.setCursor_tLo (c : BitVec 8) : (s.setCursor c).tLo = s.tLo := rfl
@[simp] theorem State.setCursor_tHi (c : BitVec 8) : (s.setCursor c).tHi = s.tHi := rfl
@[simp] theorem State.setCursor_buf (c : BitVec 8) : (s.setCursor c).buf = s.buf := rfl
@[simp] theorem State.setCursor_cursor (c : BitVec 8) : (s.setCursor c).cursor = c := rfl
@[simp] theorem State.setCursor_outlen (c : BitVec 8) : (s.setCursor c).outlen = s.outlen := rfl
@[simp] theorem State.setCursor_inputs (c : BitVec 8) : (s.setCursor c).inputs = s.inputs := rfl
@[simp] theorem State.setCursor_responses (c : BitVec 8) : (s.setCursor c).responses = s.responses := rfl

/-! ### State.setPhase -/
@[simp] theorem State.setPhase_phase (p : Phase) : (s.setPhase p).phase = p := rfl
@[simp] theorem State.setPhase_fault (p : Phase) : (s.setPhase p).fault = s.fault := rfl
@[simp] theorem State.setPhase_h (p : Phase) : (s.setPhase p).h = s.h := rfl
@[simp] theorem State.setPhase_tLo (p : Phase) : (s.setPhase p).tLo = s.tLo := rfl
@[simp] theorem State.setPhase_tHi (p : Phase) : (s.setPhase p).tHi = s.tHi := rfl
@[simp] theorem State.setPhase_buf (p : Phase) : (s.setPhase p).buf = s.buf := rfl
@[simp] theorem State.setPhase_cursor (p : Phase) : (s.setPhase p).cursor = s.cursor := rfl
@[simp] theorem State.setPhase_outlen (p : Phase) : (s.setPhase p).outlen = s.outlen := rfl
@[simp] theorem State.setPhase_inputs (p : Phase) : (s.setPhase p).inputs = s.inputs := rfl
@[simp] theorem State.setPhase_responses (p : Phase) : (s.setPhase p).responses = s.responses := rfl

/-! ### State.setInputs -/
@[simp] theorem State.setInputs_phase (l : List Input) : (s.setInputs l).phase = s.phase := rfl
@[simp] theorem State.setInputs_fault (l : List Input) : (s.setInputs l).fault = s.fault := rfl
@[simp] theorem State.setInputs_h (l : List Input) : (s.setInputs l).h = s.h := rfl
@[simp] theorem State.setInputs_tLo (l : List Input) : (s.setInputs l).tLo = s.tLo := rfl
@[simp] theorem State.setInputs_tHi (l : List Input) : (s.setInputs l).tHi = s.tHi := rfl
@[simp] theorem State.setInputs_buf (l : List Input) : (s.setInputs l).buf = s.buf := rfl
@[simp] theorem State.setInputs_cursor (l : List Input) : (s.setInputs l).cursor = s.cursor := rfl
@[simp] theorem State.setInputs_outlen (l : List Input) : (s.setInputs l).outlen = s.outlen := rfl
@[simp] theorem State.setInputs_inputs (l : List Input) : (s.setInputs l).inputs = l := rfl
@[simp] theorem State.setInputs_responses (l : List Input) : (s.setInputs l).responses = s.responses := rfl

/-! ### State.counterAdd -/
@[simp] theorem State.counterAdd_phase (n : Word) : (s.counterAdd n).phase = s.phase := rfl
@[simp] theorem State.counterAdd_fault (n : Word) : (s.counterAdd n).fault = s.fault := rfl
@[simp] theorem State.counterAdd_h (n : Word) : (s.counterAdd n).h = s.h := rfl
@[simp] theorem State.counterAdd_tLo (n : Word) : (s.counterAdd n).tLo = s.tLo + n := rfl
@[simp] theorem State.counterAdd_tHi (n : Word) : (s.counterAdd n).tHi = s.tHi + addCarry s.tLo n := rfl
@[simp] theorem State.counterAdd_buf (n : Word) : (s.counterAdd n).buf = s.buf := rfl
@[simp] theorem State.counterAdd_cursor (n : Word) : (s.counterAdd n).cursor = s.cursor := rfl
@[simp] theorem State.counterAdd_outlen (n : Word) : (s.counterAdd n).outlen = s.outlen := rfl
@[simp] theorem State.counterAdd_inputs (n : Word) : (s.counterAdd n).inputs = s.inputs := rfl
@[simp] theorem State.counterAdd_responses (n : Word) : (s.counterAdd n).responses = s.responses := rfl

/-! ### State.beginSession -/
@[simp] theorem State.beginSession_phase (o k : BitVec 7) : (s.beginSession o k).phase = s.phase := rfl
@[simp] theorem State.beginSession_fault (o k : BitVec 7) : (s.beginSession o k).fault = s.fault := rfl
@[simp] theorem State.beginSession_h (o k : BitVec 7) : (s.beginSession o k).h = initialHash o k := rfl
@[simp] theorem State.beginSession_tLo (o k : BitVec 7) : (s.beginSession o k).tLo = 0 := rfl
@[simp] theorem State.beginSession_tHi (o k : BitVec 7) : (s.beginSession o k).tHi = 0 := rfl
@[simp] theorem State.beginSession_buf (o k : BitVec 7) : (s.beginSession o k).buf = s.buf := rfl
@[simp] theorem State.beginSession_cursor (o k : BitVec 7) : (s.beginSession o k).cursor = 0 := rfl
@[simp] theorem State.beginSession_outlen (o k : BitVec 7) : (s.beginSession o k).outlen = o := rfl
@[simp] theorem State.beginSession_inputs (o k : BitVec 7) : (s.beginSession o k).inputs = s.inputs := rfl
@[simp] theorem State.beginSession_responses (o k : BitVec 7) : (s.beginSession o k).responses = s.responses := rfl

/-! ### raise -/
@[simp] theorem raise_phase (e : Trap) : (raise e s).phase = .faulted := rfl
@[simp] theorem raise_fault (e : Trap) : (raise e s).fault = e.status.code := rfl
@[simp] theorem raise_h (e : Trap) : (raise e s).h = s.h := rfl
@[simp] theorem raise_tLo (e : Trap) : (raise e s).tLo = s.tLo := rfl
@[simp] theorem raise_tHi (e : Trap) : (raise e s).tHi = s.tHi := rfl
@[simp] theorem raise_buf (e : Trap) : (raise e s).buf = s.buf := rfl
@[simp] theorem raise_cursor (e : Trap) : (raise e s).cursor = s.cursor := rfl
@[simp] theorem raise_outlen (e : Trap) : (raise e s).outlen = s.outlen := rfl
@[simp] theorem raise_inputs (e : Trap) : (raise e s).inputs = s.inputs := rfl
@[simp] theorem raise_responses (e : Trap) : (raise e s).responses = s.responses ++ [⟨e.status, []⟩] := rfl

/-! ### takeReset -/
@[simp] theorem takeReset_phase : (takeReset s).phase = State.reset.phase := rfl
@[simp] theorem takeReset_fault : (takeReset s).fault = State.reset.fault := rfl
@[simp] theorem takeReset_h : (takeReset s).h = State.reset.h := rfl
@[simp] theorem takeReset_tLo : (takeReset s).tLo = State.reset.tLo := rfl
@[simp] theorem takeReset_tHi : (takeReset s).tHi = State.reset.tHi := rfl
@[simp] theorem takeReset_buf : (takeReset s).buf = State.reset.buf := rfl
@[simp] theorem takeReset_cursor : (takeReset s).cursor = State.reset.cursor := rfl
@[simp] theorem takeReset_outlen : (takeReset s).outlen = State.reset.outlen := rfl
@[simp] theorem takeReset_inputs : (takeReset s).inputs = s.inputs := rfl
@[simp] theorem takeReset_responses : (takeReset s).responses = s.responses := rfl

/-! ### State.registers -/
@[simp] theorem State.registers_phase : (s.registers).phase = s.phase := rfl
@[simp] theorem State.registers_fault : (s.registers).fault = s.fault := rfl
@[simp] theorem State.registers_h : (s.registers).h = s.h := rfl
@[simp] theorem State.registers_tLo : (s.registers).tLo = s.tLo := rfl
@[simp] theorem State.registers_tHi : (s.registers).tHi = s.tHi := rfl
@[simp] theorem State.registers_buf : (s.registers).buf = s.buf := rfl
@[simp] theorem State.registers_cursor : (s.registers).cursor = s.cursor := rfl
@[simp] theorem State.registers_outlen : (s.registers).outlen = s.outlen := rfl
@[simp] theorem State.registers_inputs : (s.registers).inputs = [] := rfl
@[simp] theorem State.registers_responses : (s.registers).responses = [] := rfl

/-! ### The counter through updates that leave it alone -/
@[simp] theorem State.respond_counter (st : Status) (data : List Byte) : (s.respond st data).counter = s.counter := rfl
@[simp] theorem State.setHash_counter (x : Vector Word 8) : (s.setHash x).counter = s.counter := rfl
@[simp] theorem State.setBuf_counter (m : Memory) : (s.setBuf m).counter = s.counter := rfl
@[simp] theorem State.setCursor_counter (c : BitVec 8) : (s.setCursor c).counter = s.counter := rfl
@[simp] theorem State.setPhase_counter (p : Phase) : (s.setPhase p).counter = s.counter := rfl
@[simp] theorem State.setInputs_counter (l : List Input) : (s.setInputs l).counter = s.counter := rfl
@[simp] theorem raise_counter (e : Trap) : (raise e s).counter = s.counter := rfl
@[simp] theorem State.registers_counter : (s.registers).counter = s.counter := rfl

/-! ### Repeated updates -/
@[simp] theorem State.setBuf_setBuf (m m' : Memory) : (s.setBuf m).setBuf m' = s.setBuf m' := rfl
@[simp] theorem State.setBuf_self : s.setBuf s.buf = s := rfl
@[simp] theorem State.setInputs_self : s.setInputs s.inputs = s := rfl

end Sys2Proof.Machine
end

