-- ==== Sys2Proof/Laws/Buffer.lean ====
section
/-! SUPPORT. What the buffer operations can do: each answers exactly when its indices exist and, for a read,
have been written. -/

namespace Sys2Proof.Machine

theorem bufRead_eq_ok {s : State} {i : Nat} {b : Byte} :
    bufRead s i = .ok b ↔ i < 128 ∧ s.buf.read i = some b := by
  unfold bufRead Config.blockBytes
  split
  · split <;> simp_all
  · simp_all

theorem bufWrite_of_lt {s : State} {i : Nat} (h : i < 128) (b : Byte) :
    bufWrite s i b = .ok (s.setBuf (s.buf.write i b)) := by
  simp [bufWrite, Config.blockBytes, h]

theorem bufWrite_eq_ok {s t : State} {i : Nat} {b : Byte} :
    bufWrite s i b = .ok t ↔ i < 128 ∧ t = s.setBuf (s.buf.write i b) := by
  unfold bufWrite Config.blockBytes
  split <;> simp_all [eq_comm]

theorem bufWrite_of_ge {s : State} {i : Nat} (h : 128 ≤ i) (b : Byte) :
    bufWrite s i b = .error (.bufferRange i) :=
  if_neg (Nat.not_lt.mpr h)

theorem bufRead_of_some {s : State} {i : Nat} {b : Byte} (h : i < 128) (hr : s.buf.read i = some b) :
    bufRead s i = .ok b :=
  bufRead_eq_ok.mpr ⟨h, hr⟩

/-- An unwritten byte faults (10_state.md R38, log 4). -/
theorem bufRead_of_none {s : State} {i : Nat} (h : i < 128) (hr : s.buf.read i = none) :
    bufRead s i = .error (.bufferUnwritten i) := by
  rw [bufRead, if_pos (show i < Config.blockBytes from h), hr]

/-- Writing bytes that fit in the buffer writes exactly them. -/
theorem bufWriteList_of_le {s : State} {i : Nat} {l : List Byte} (h : i + l.length ≤ 128) :
    bufWriteList s i l = .ok (s.setBuf (s.buf.writeList i l)) := by
  induction l generalizing s i with
  | nil => rfl
  | cons b l ih =>
    simp only [List.length_cons] at h
    simp only [bufWriteList, bufWrite_of_lt (show i < 128 by omega) b]
    rw [ih (by omega)]
    rfl

/-- The bytes a run of indices holds, an unwritten one as 0. -/
def Memory.bytes (m : Memory) (i n : Nat) : List Byte := (List.range' i n).map fun j => (m.read j).getD 0

@[simp] theorem Memory.bytes_length (m : Memory) (i n : Nat) : (m.bytes i n).length = n := by
  simp [Memory.bytes]

theorem State.pending_eq_bytes (s : State) : s.pending = s.buf.bytes 0 s.cursor.toNat := by
  simp [State.pending, Memory.bytes, List.range_eq_range']

@[simp] theorem State.pending_length (s : State) : s.pending.length = s.cursor.toNat := by
  simp [State.pending]

theorem Memory.bytes_add (m : Memory) (i n k : Nat) : m.bytes i (n + k) = m.bytes i n ++ m.bytes (i + n) k := by
  simp [Memory.bytes, ← List.map_append, List.range'_append_1]

theorem Memory.bytes_congr {m m' : Memory} {i n : Nat} (h : ∀ j, i ≤ j → j < i + n → m.read j = m'.read j) :
    m.bytes i n = m'.bytes i n := by
  refine List.map_congr_left fun j hj => ?_
  have := List.mem_range'_1.mp hj
  rw [h j this.1 this.2]

/-- What consecutive writes leave in their own range. -/
theorem Memory.bytes_writeList_self (m : Memory) (i : Nat) (l : List Byte) :
    (m.writeList i l).bytes i l.length = l := by
  apply List.ext_getElem
  · simp
  · intro j h1 h2
    have e : (m.writeList i l).read (i + 1 * j) = l[j]? := by
      rw [Memory.read_writeList, if_pos (by omega)]
      congr 1
      omega
    simp only [Memory.bytes, List.getElem_map, List.getElem_range', e, List.getElem?_eq_getElem h2,
      Option.getD_some]

/-- Reading a run answers when every index of it exists and has been written. -/
theorem bufReadList_of_written {s : State} {i n : Nat} (hn : i + n ≤ 128)
    (h : ∀ j, i ≤ j → j < i + n → (s.buf.read j).isSome) : bufReadList s i n = .ok (s.buf.bytes i n) := by
  induction n generalizing i with
  | zero => simp [bufReadList, Memory.bytes]
  | succ n ih =>
    obtain ⟨b, hb⟩ := Option.isSome_iff_exists.mp (h i (Nat.le_refl i) (by omega))
    have hr : bufRead s i = .ok b := bufRead_eq_ok.mpr ⟨by omega, hb⟩
    have ht := ih (i := i + 1) (by omega) fun j h1 h2 => h j (by omega) (by omega)
    simp [bufReadList, hr, ht, Memory.bytes, List.range'_succ, hb]

/-- And only then. -/
theorem bufReadList_eq_ok {s : State} {i n : Nat} {l : List Byte} (h : bufReadList s i n = .ok l) :
    l = s.buf.bytes i n ∧ ∀ j, i ≤ j → j < i + n → j < 128 ∧ (s.buf.read j).isSome := by
  induction n generalizing i l with
  | zero =>
    simp only [bufReadList, Except.ok.injEq] at h
    exact ⟨by simp [← h, Memory.bytes], fun j h1 h2 => absurd h1 (by omega)⟩
  | succ n ih =>
    simp only [bufReadList] at h
    split at h
    · cases h
    · rename_i b hb
      split at h
      · cases h
      · rename_i rest hrest
        cases h
        obtain ⟨h128, hread⟩ := bufRead_eq_ok.mp hb
        obtain ⟨hl, hw⟩ := ih hrest
        refine ⟨by simp [hl, Memory.bytes, List.range'_succ, hread], fun j h1 h2 => ?_⟩
        rcases Nat.eq_or_lt_of_le h1 with rfl | hlt
        · exact ⟨h128, by simp [hread]⟩
        · exact hw j hlt (by omega)

end Sys2Proof.Machine
end

