-- ==== Sys2Proof/Laws/Checks.lean ====
section
/-! SUPPORT. What the checks of 60_exceptions.md R205 can answer, and how a command ends. -/

namespace Sys2Proof.Machine

/-- Every code of a fault stands for that fault's status. -/
@[simp] theorem Status.ofCode_code (st : Status) : Status.ofCode st.code = some st := by
  cases st <;> decide

theorem Status.ofCode_eq_some {c : BitVec 4} {st : Status} : Status.ofCode c = some st ↔ c = st.code := by
  constructor
  · intro h
    simp only [Status.ofCode] at h
    split_ifs at h <;> cases h <;> simp_all [Status.code]
  · rintro rfl
    exact Status.ofCode_code st

theorem answerFaulted_of_code {s : State} {st : Status} (h : s.fault = st.code) :
    answerFaulted s = .next (s.respond st []) := by
  simp [answerFaulted, h]

/-- While FAULTED an answer is the code in FAULT and nothing else. -/
theorem answerFaulted_next {s t : State} (h : answerFaulted s = .next t) :
    ∃ st : Status, s.fault = st.code ∧ t = s.respond st [] := by
  unfold answerFaulted at h
  split at h
  · rename_i st hst
    exact ⟨st, Status.ofCode_eq_some.mp hst, by cases h; rfl⟩
  · cases h

/-- The common checks pass. -/
theorem checked_of_pass {n : Nat} {p : List Byte} {s : State}
    {f : State → Host.Outcome State Fault Refusal} (h1 : s.phase ≠ .faulted) (h2 : p.length = n) :
    checked n p s f = f s := by
  simp [checked, h1, h2]

/-- The payload has another length than declared. -/
theorem checked_of_mismatch {n : Nat} {p : List Byte} {s : State}
    {f : State → Host.Outcome State Fault Refusal} (h1 : s.phase ≠ .faulted) (h2 : p.length ≠ n) :
    checked n p s f = .next (raise .payloadMismatch s) := by
  simp [checked, h1, h2]

theorem checked_of_faulted {n : Nat} {p : List Byte} {s : State}
    {f : State → Host.Outcome State Fault Refusal} (h : s.phase = .faulted) :
    checked n p s f = answerFaulted s := by
  simp [checked, h]

/-- Everything the common checks can answer. -/
theorem checked_cases (n : Nat) (p : List Byte) (s : State) (f : State → Host.Outcome State Fault Refusal) :
    (s.phase = .faulted ∧ checked n p s f = answerFaulted s) ∨
    (s.phase ≠ .faulted ∧ p.length ≠ n ∧ checked n p s f = .next (raise .payloadMismatch s)) ∨
    (s.phase ≠ .faulted ∧ p.length = n ∧ checked n p s f = f s) := by
  by_cases h1 : s.phase = .faulted
  · exact .inl ⟨h1, checked_of_faulted h1⟩
  · by_cases h2 : p.length = n
    · exact .inr (.inr ⟨h1, h2, checked_of_pass h1 h2⟩)
    · exact .inr (.inl ⟨h1, h2, checked_of_mismatch h1 h2⟩)

theorem requireActive_of_active {s : State} {f : State → Host.Outcome State Fault Refusal}
    (h : s.phase = .active) : requireActive s f = f s := by
  simp [requireActive, h]

theorem requireActive_of_not_active {s : State} {f : State → Host.Outcome State Fault Refusal}
    (h : s.phase ≠ .active) : requireActive s f = .next (raise .sessionMisuse s) := by
  simp [requireActive, h]

@[simp] theorem finish_ok (s : State) : finish (.ok s) = .next s := rfl
@[simp] theorem finish_error (f : Fault) : finish (.error f) = .fault f := rfl

theorem finish_eq_next {x : Except Fault State} {t : State} : finish x = .next t ↔ x = .ok t := by
  cases x <;> simp [finish]

end Sys2Proof.Machine
end

