-- ==== Sys2Proof/Laws/Compress.lean ====
section
/-! SUPPORT. What G touches, and when COMPRESS over the session buffer answers (42_compress.md R140, R141,
R148; 20_memory.md R64). -/

namespace Sys2Proof.Machine

theorem Quad.ne (q : Quad) :
    q.a ≠ q.b ∧ q.a ≠ q.c ∧ q.a ≠ q.d ∧ q.b ≠ q.c ∧ q.b ≠ q.d ∧ q.c ≠ q.d := by
  have h := q.distinct
  simp only [List.nodup_cons, List.mem_cons, List.not_mem_nil, or_false, not_or] at h
  tauto

/-- Every word after four words are put at a quadruple's indices. -/
theorem putLane_getElem (v : Vector Word 16) (q : Quad) (l : Lane) (i : Fin 16) :
    (putLane v q l)[i] =
      if i = q.d then l.d else if i = q.c then l.c else if i = q.b then l.b else if i = q.a then l.a
      else v[i] := by
  simp only [putLane, Fin.getElem_fin, Vector.getElem_set, Fin.ext_iff, eq_comm (a := (i : Nat))]

/-- What was put at a quadruple's indices is what stands there. -/
theorem laneOf_putLane (v : Vector Word 16) (q : Quad) (l : Lane) : laneOf (putLane v q l) q = l := by
  obtain ⟨hab, hac, had, hbc, hbd, hcd⟩ := q.ne
  simp only [laneOf, putLane_getElem, hab, hac, had, hbc, hbd, hcd, if_true, if_false]

/-- Other indices are left alone. -/
theorem putLane_other (v : Vector Word 16) (q : Quad) (l : Lane) (i : Fin 16) (h : i ∉ [q.a, q.b, q.c, q.d]) :
    (putLane v q l)[i] = v[i] := by
  simp only [List.mem_cons, List.not_mem_nil, or_false, not_or] at h
  rw [putLane_getElem, if_neg h.2.2.2, if_neg h.2.2.1, if_neg h.2.1, if_neg h.1]

/-- COMPRESS answers when all 128 buffer bytes have been written, and writes `h` only. -/
theorem compressBuf_of_written {s : State} (last : Bool) (h : ∀ j < 128, (s.buf.read j).isSome) :
    compressBuf last s =
      .ok (s.setHash (compress s.h (messageWords (s.buf.bytes 0 128)) s.tLo s.tHi last)) := by
  have := bufReadList_of_written (s := s) (i := 0) (n := 128) (by omega) fun j _ hj => h j (by omega)
  simp [compressBuf, Config.blockBytes, this]

/-- And only then. -/
theorem compressBuf_eq_ok {s t : State} {last : Bool} (h : compressBuf last s = .ok t) :
    t = s.setHash (compress s.h (messageWords (s.buf.bytes 0 128)) s.tLo s.tHi last) ∧
      ∀ j < 128, (s.buf.read j).isSome := by
  simp only [compressBuf, Config.blockBytes] at h
  split at h
  · cases h
  · rename_i block hb
    obtain ⟨rfl, hw⟩ := bufReadList_eq_ok hb
    cases h
    exact ⟨rfl, fun j hj => (hw j (Nat.zero_le j) (by omega)).2⟩

end Sys2Proof.Machine
end

