-- ==== Sys2Proof/Laws/Commands.lean ====
section
/-! SUPPORT. One specification lemma for each part of INIT, ABSORB and FINALIZE: when it answers and what it
leaves. -/

namespace Sys2Proof.Machine

/-! ## INIT -/

theorem keyBlock_length {key : List Byte} (h : key.length ≤ 128) : (keyBlock key).length = 128 := by
  simp [keyBlock, Config.blockBytes]
  omega

theorem loadKey_of_le {s : State} {keylen : BitVec 7} {key : List Byte} (h : key.length ≤ 128) :
    loadKey keylen key s = .ok (if keylen = 0 then s
      else (s.setBuf (s.buf.writeList 0 (keyBlock key))).setCursor 128) := by
  unfold loadKey
  split
  · rfl
  · rw [bufWriteList_of_le (by rw [keyBlock_length h])]

/-- A legal INIT always answers. -/
theorem performInit_of_le {s : State} {outlen keylen : BitVec 7} {key : List Byte} (h : key.length ≤ 128) :
    performInit outlen keylen key s = .ok (((if keylen = 0 then s.beginSession outlen keylen
      else ((s.beginSession outlen keylen).setBuf (s.buf.writeList 0 (keyBlock key))).setCursor 128).setPhase
        .active).respond .ok []) := by
  simp only [performInit, loadKey_of_le h, State.beginSession_buf]

/-- The keyed buffer holds the key block. -/
theorem bytes_keyBlock (m : Memory) {key : List Byte} (h : key.length ≤ 128) :
    (m.writeList 0 (keyBlock key)).bytes 0 128 = keyBlock key := by
  have := Memory.bytes_writeList_self m 0 (keyBlock key)
  rwa [keyBlock_length h] at this

/-! ## The byte step -/

/-- A buffer that is not full is not compressed. -/
theorem flushIfFull_of_ne {s : State} (h : s.cursor ≠ 128) : flushIfFull s = .ok s :=
  if_neg h

/-- A full buffer is compressed, counted first. -/
theorem flushIfFull_of_full {s : State} (h : s.cursor = 128) (hw : ∀ j < 128, (s.buf.read j).isSome) :
    flushIfFull s = .ok (((s.counterAdd 128).setHash
      (compress s.h (messageWords (s.buf.bytes 0 128)) (s.counterAdd 128).tLo (s.counterAdd 128).tHi
        false)).setCursor 0) := by
  have := compressBuf_of_written (s := s.counterAdd 128) false hw
  rw [flushIfFull, if_pos h, flush, this]
  rfl

/-- The byte step with room in the buffer. -/
theorem absorbByte_of_lt {s : State} {b : Byte} (h : s.cursor.toNat < 128) :
    absorbByte b s = .ok ((s.setBuf (s.buf.write s.cursor.toNat b)).setCursor (s.cursor + 1)) := by
  have hne : s.cursor ≠ 128 := by
    intro e
    rw [e] at h
    exact absurd h (by decide)
  simp only [absorbByte, flushIfFull_of_ne hne, bufWrite_of_lt h, State.setBuf_cursor]

/-- The byte step on a full buffer. -/
theorem absorbByte_of_full {s : State} {b : Byte} (h : s.cursor = 128)
    (hw : ∀ j < 128, (s.buf.read j).isSome) :
    absorbByte b s = .ok ((((s.counterAdd 128).setHash
      (compress s.h (messageWords (s.buf.bytes 0 128)) (s.counterAdd 128).tLo (s.counterAdd 128).tHi
        false)).setBuf (s.buf.write 0 b)).setCursor 1) := by
  simp only [absorbByte, flushIfFull_of_full h hw]
  rw [bufWrite_of_lt (by simp)]
  rfl

/-- The byte step with a cursor that no command leaves (log 6). -/
theorem absorbByte_of_gt {s : State} {b : Byte} (h : 128 < s.cursor.toNat) :
    absorbByte b s = .error (.bufferRange s.cursor.toNat) := by
  have hne : s.cursor ≠ 128 := by
    intro e
    rw [e] at h
    exact absurd h (by decide)
  simp only [absorbByte, flushIfFull_of_ne hne, bufWrite_of_ge (Nat.le_of_lt h)]

/-- The byte step on a full buffer answers only when every byte of it has been written. -/
theorem written_of_absorbByte_full {s t : State} {b : Byte} (h : s.cursor = 128)
    (ht : absorbByte b s = .ok t) : ∀ j < 128, (s.buf.read j).isSome := by
  rw [absorbByte, flushIfFull, if_pos h, flush] at ht
  split at ht
  · exact nomatch ht
  · rename_i u hu
    split at hu
    · exact nomatch hu
    · rename_i v hv
      exact (compressBuf_eq_ok hv).2

/-- Everything the byte step can do when it answers. -/
theorem absorbByte_cases {s t : State} {b : Byte} (ht : absorbByte b s = .ok t) :
    (s.cursor.toNat < 128 ∧ t = (s.setBuf (s.buf.write s.cursor.toNat b)).setCursor (s.cursor + 1)) ∨
    (s.cursor = 128 ∧ (∀ j < 128, (s.buf.read j).isSome) ∧
      t = (((s.counterAdd 128).setHash
        (compress s.h (messageWords (s.buf.bytes 0 128)) (s.counterAdd 128).tLo (s.counterAdd 128).tHi
          false)).setBuf (s.buf.write 0 b)).setCursor 1) := by
  rcases Nat.lt_trichotomy s.cursor.toNat 128 with h | h | h
  · rw [absorbByte_of_lt h, Except.ok.injEq] at ht
    exact .inl ⟨h, ht.symm⟩
  · have hc : s.cursor = 128 := BitVec.eq_of_toNat_eq h
    have hw := written_of_absorbByte_full hc ht
    rw [absorbByte_of_full hc hw, Except.ok.injEq] at ht
    exact .inr ⟨hc, hw, ht.symm⟩
  · rw [absorbByte_of_gt h] at ht
    exact nomatch ht

/-- The byte loop of a payload in two parts is the byte loop of each in turn. -/
theorem absorbBytes_append (d e : List Byte) (s : State) :
    absorbBytes (d ++ e) s = match absorbBytes d s with
      | .error f => .error f
      | .ok s' => absorbBytes e s' := by
  induction d generalizing s with
  | nil => rfl
  | cons b d ih =>
    simp only [List.cons_append, absorbBytes]
    split
    · rfl
    · exact ih _

/-! ## FINALIZE -/

theorem zeroFill_length (c : BitVec 8) : (zeroFill c).length = 128 - c.toNat := by
  simp [zeroFill, Config.blockBytes]

/-- Padding the final block always answers for a cursor that the register may hold. -/
theorem padFinalBlock_of_le {s : State} (h : s.cursor.toNat ≤ 128) :
    padFinalBlock s = .ok ((s.counterAdd (cursorWord s.cursor)).setBuf
      (s.buf.writeList s.cursor.toNat (zeroFill s.cursor))) := by
  rw [padFinalBlock, bufWriteList_of_le (by rw [zeroFill_length]; omega)]
  rfl

/-- The padded buffer: the pending bytes, then zeros. -/
theorem bytes_zeroFill (s : State) (h : s.cursor.toNat ≤ 128) :
    (s.buf.writeList s.cursor.toNat (zeroFill s.cursor)).bytes 0 128 = s.pending ++ zeroFill s.cursor := by
  have hs : 128 = s.cursor.toNat + (zeroFill s.cursor).length := by rw [zeroFill_length]; omega
  rw [hs, Memory.bytes_add, State.pending_eq_bytes, Nat.zero_add, Memory.bytes_writeList_self]
  congr 1
  refine Memory.bytes_congr fun j _ hj => ?_
  rw [Memory.read_writeList, if_neg (by omega)]

theorem written_zeroFill (s : State) (hw : ∀ j < s.cursor.toNat, (s.buf.read j).isSome) {j : Nat}
    (hj : j < 128) : ((s.buf.writeList s.cursor.toNat (zeroFill s.cursor)).read j).isSome := by
  rw [Memory.read_writeList]
  split
  · rename_i h
    rw [List.getElem?_eq_getElem (by omega)]
    rfl
  · rename_i h
    rw [zeroFill_length] at h
    exact hw j (by omega)

/-- FINALIZE answers when every byte below the cursor has been written. -/
theorem performFinalize_of_written {s : State} (h : s.cursor.toNat ≤ 128)
    (hw : ∀ j < s.cursor.toNat, (s.buf.read j).isSome) :
    performFinalize s =
      let t := s.counterAdd (cursorWord s.cursor)
      let t := t.setBuf (s.buf.writeList s.cursor.toNat (zeroFill s.cursor))
      let t := t.setHash (compress s.h (messageWords (s.pending ++ zeroFill s.cursor)) t.tLo t.tHi true)
      .ok ((t.setPhase .terminal).respond .ok (digest t)) := by
  simp only [performFinalize, padFinalBlock_of_le h]
  rw [compressBuf_of_written true fun j hj => written_zeroFill s hw hj]
  simp only [State.setBuf_buf, bytes_zeroFill s h]
  rfl

end Sys2Proof.Machine
end

