-- ==== Sys2Proof/Laws/Decode.lean ====
section
/-! SUPPORT. The fields of a command word as numbers, and the bytes of a word. -/

namespace Sys2Proof

theorem fieldOp_toNat (w : CmdWord) : (fieldOp w).toNat = w.toNat % 16 := by
  simp [fieldOp, BitVec.extractLsb'_toNat]

theorem fieldLen_toNat (w : CmdWord) : (fieldLen w).toNat = w.toNat / 16 := by
  have := w.isLt
  simp only [fieldLen, BitVec.extractLsb'_toNat, Nat.shiftRight_eq_div_pow]
  omega

theorem fieldOutlen_toNat (w : CmdWord) : (fieldOutlen w).toNat = w.toNat / 16 % 128 := by
  simp [fieldOutlen, BitVec.extractLsb'_toNat, Nat.shiftRight_eq_div_pow]

theorem fieldKeylen_toNat (w : CmdWord) : (fieldKeylen w).toNat = w.toNat / 2048 % 128 := by
  simp [fieldKeylen, BitVec.extractLsb'_toNat, Nat.shiftRight_eq_div_pow]

theorem fieldInitReserved_toNat (w : CmdWord) : (fieldInitReserved w).toNat = w.toNat / 262144 := by
  have := w.isLt
  simp only [fieldInitReserved, BitVec.extractLsb'_toNat, Nat.shiftRight_eq_div_pow]
  omega

theorem wordOfBytes_toNat (b0 b1 b2 b3 : Byte) :
    (wordOfBytes b0 b1 b2 b3).toNat =
      b0.toNat + 256 * b1.toNat + 65536 * b2.toNat + 16777216 * b3.toNat := by
  have h0 := b0.isLt
  have h1 := b1.isLt
  have h2 := b2.isLt
  have h3 := b3.isLt
  simp only [wordOfBytes, BitVec.toNat_append]
  rw [← Nat.shiftLeft_add_eq_or_of_lt h2, ← Nat.shiftLeft_add_eq_or_of_lt h1, ← Nat.shiftLeft_add_eq_or_of_lt h0]
  simp only [Nat.shiftLeft_eq]
  omega

theorem encodeWord_init_toNat (o k : BitVec 7) (key : List Byte) :
    (encodeWord (.init o k key)).toNat = 1 + 16 * o.toNat + 2048 * k.toNat := by
  have ho := o.isLt
  have hk := k.isLt
  simp only [encodeWord, opInit, BitVec.toNat_append, BitVec.toNat_ofNat]
  rw [← Nat.shiftLeft_add_eq_or_of_lt hk, ← Nat.shiftLeft_add_eq_or_of_lt ho,
    ← Nat.shiftLeft_add_eq_or_of_lt (by omega)]
  simp only [Nat.shiftLeft_eq]
  omega

theorem encodeWord_absorb_toNat (n : BitVec 28) (data : List Byte) :
    (encodeWord (.absorb n data)).toNat = 2 + 16 * n.toNat := by
  have hn := n.isLt
  simp only [encodeWord, opAbsorb, BitVec.toNat_append, BitVec.toNat_ofNat]
  rw [← Nat.shiftLeft_add_eq_or_of_lt (by omega)]
  simp only [Nat.shiftLeft_eq]
  omega

theorem encodeWord_finalize (p : List Byte) : encodeWord (.finalize p) = 3#32 := rfl

end Sys2Proof
end

