-- ==== Sys2Proof/Laws/Exec.lean ====
section
/-! SUPPORT. What `exec` is in each case of 60_exceptions.md R205: one lemma for each check that ends a
command, and one for each command once the checks have passed. -/

namespace Sys2Proof.Machine

theorem legalParameters_iff {o k : BitVec 7} :
    legalParameters o k = true ↔ 1 ≤ o.toNat ∧ o.toNat ≤ 64 ∧ k.toNat ≤ 64 := by
  show (decide (1 ≤ o.toNat) && decide (o.toNat ≤ 64) && decide (k.toNat ≤ 64)) = true ↔ _
  simp only [Bool.and_eq_true, decide_eq_true_eq, and_assoc]

/-- While FAULTED every command gets the sticky answer. -/
theorem exec_of_faulted {s : State} (i : Instr) (h : s.phase = .faulted) : exec i s = answerFaulted s := by
  cases i
  all_goals
    simp only [exec, execInit, execAbsorb, execFinalize]
    exact checked_of_faulted h

/-- A command whose payload has another length than declared. -/
theorem exec_of_not_wellFormed {s : State} {i : Instr} (h : s.phase ≠ .faulted) (hw : i.wellFormed = false) :
    exec i s = .next (raise .payloadMismatch s) := by
  have hl : i.payload.length ≠ i.declaredLength := by simpa [Instr.wellFormed] using hw
  cases i
  all_goals
    simp only [exec, execInit, execAbsorb, execFinalize]
    exact checked_of_mismatch h hl

/-- INIT once the common checks have passed. -/
theorem exec_init_of_pass {s : State} {o k : BitVec 7} {key : List Byte} (h : s.phase ≠ .faulted)
    (hl : key.length = k.toNat) :
    exec (.init o k key) s = if legalParameters o k then finish (performInit o k key s)
      else .next (s.respond .invalidParameter []) := by
  simp only [exec, execInit]
  rw [checked_of_pass h hl]

/-- ABSORB in an ACTIVE session. -/
theorem exec_absorb_of_active {s : State} {n : BitVec 28} {data : List Byte} (h : s.phase = .active)
    (hl : data.length = n.toNat) : exec (.absorb n data) s = finish (performAbsorb data s) := by
  simp only [exec, execAbsorb]
  rw [checked_of_pass (by simp [h]) hl, requireActive_of_active h]

/-- ABSORB outside one. -/
theorem exec_absorb_of_misuse {s : State} {n : BitVec 28} {data : List Byte} (h : s.phase ≠ .faulted)
    (ha : s.phase ≠ .active) (hl : data.length = n.toNat) :
    exec (.absorb n data) s = .next (raise .sessionMisuse s) := by
  simp only [exec, execAbsorb]
  rw [checked_of_pass h hl, requireActive_of_not_active ha]

/-- FINALIZE in an ACTIVE session. -/
theorem exec_finalize_of_active {s : State} (h : s.phase = .active) :
    exec (.finalize []) s = finish (performFinalize s) := by
  simp only [exec, execFinalize]
  rw [checked_of_pass (by simp [h]) List.length_nil, requireActive_of_active h]

/-- FINALIZE outside one. -/
theorem exec_finalize_of_misuse {s : State} (h : s.phase ≠ .faulted) (ha : s.phase ≠ .active) :
    exec (.finalize []) s = .next (raise .sessionMisuse s) := by
  simp only [exec, execFinalize]
  rw [checked_of_pass h List.length_nil, requireActive_of_not_active ha]

/-- An illegal word, when not FAULTED. -/
theorem illegalWord_of_not_faulted {s : State} (h : s.phase ≠ .faulted) :
    illegalWord s = .next (raise .illegalCommand s) := by
  rw [illegalWord, if_neg h]

theorem illegalWord_of_faulted {s : State} (h : s.phase = .faulted) : illegalWord s = answerFaulted s := by
  rw [illegalWord, if_pos h]

end Sys2Proof.Machine
end

