-- ==== Sys2Proof/Laws/PerInstr.lean ====
section
/-! SUPPORT. Facts proved constructor by constructor. `EncodeShape`: the opcode of every command's word, that
its reserved bits are zero, and how many bytes it takes on a byte transport (30_encoding.md R72 to R78). -/

namespace Sys2Proof.Laws.EncodeShape

/-- The opcode R77 gives a command. -/
def opcode : Instr → Nat
  | .init _ _ _ => 1
  | .absorb _ _ => 2
  | .finalize _ => 3

/-- The number of low bits of the word that are not reserved. -/
def usedBits : Instr → Nat
  | .init _ _ _ => 18
  | .absorb _ _ => 32
  | .finalize _ => 4

def Statement (i : Instr) : Prop :=
  (encodeWord i).toNat % 16 = opcode i ∧ (encodeWord i).toNat < 2 ^ usedBits i ∧
    (encode i).length = 4 + i.payload.length

theorem encode_length (i : Instr) : (encode i).length = 4 + i.payload.length := by
  simp only [encode, bytesOfWord, List.length_append, List.length_cons, List.length_nil]

theorem init (outlen keylen : BitVec 7) (key : List Byte) : Statement (.init outlen keylen key) := by
  have ho := outlen.isLt
  have hk := keylen.isLt
  refine ⟨?_, ?_, encode_length _⟩
  all_goals
    rw [encodeWord_init_toNat]
    simp only [opcode, usedBits]
    omega

theorem absorb (len : BitVec 28) (data : List Byte) : Statement (.absorb len data) := by
  have hn := len.isLt
  refine ⟨?_, ?_, encode_length _⟩
  all_goals
    rw [encodeWord_absorb_toNat]
    simp only [opcode, usedBits]
    omega

theorem finalize (payload : List Byte) : Statement (.finalize payload) :=
  ⟨by rw [encodeWord_finalize]; rfl, by rw [encodeWord_finalize]; simp [usedBits], encode_length _⟩

end Sys2Proof.Laws.EncodeShape
end

