-- ==== Sys2Proof/Laws/Step.lean ====
section
/-! SUPPORT. The four cases of a step, once. -/

namespace Sys2Proof.Machine

theorem step_idle {s : State} (h : s.inputs = []) : step s = .next s := by
  rw [step, h]
  rfl

theorem step_reset {s : State} {rest : List Input} (h : s.inputs = .reset :: rest) :
    step s = .next (takeReset (s.setInputs rest)) := by
  rw [step, h]

theorem step_command {s : State} {w : CmdWord} {p : List Byte} {rest : List Input} {i : Instr}
    (h : s.inputs = .command w p :: rest) (hd : decodeCommand w p = .ok i) :
    step s = exec i (s.setInputs rest) := by
  rw [step, h]
  simp only [hd]

theorem step_illegal {s : State} {w : CmdWord} {p : List Byte} {rest : List Input} {e : DecodeError}
    (h : s.inputs = .command w p :: rest) (hd : decodeCommand w p = .error e) :
    step s = illegalWord (s.setInputs rest) := by
  rw [step, h]
  simp only [hd]

/-- Everything a step can be. -/
theorem step_cases (s : State) :
    (s.inputs = [] ∧ step s = .next s) ∨
    (∃ rest, s.inputs = .reset :: rest ∧ step s = .next (takeReset (s.setInputs rest))) ∨
    (∃ w p rest i, s.inputs = .command w p :: rest ∧ decodeCommand w p = .ok i ∧
      step s = exec i (s.setInputs rest)) ∨
    (∃ w p rest e, s.inputs = .command w p :: rest ∧ decodeCommand w p = .error e ∧
      step s = illegalWord (s.setInputs rest)) := by
  rcases h : s.inputs with _ | ⟨c, rest⟩
  · exact .inl ⟨rfl, step_idle h⟩
  · cases c with
    | reset => exact .inr (.inl ⟨rest, rfl, step_reset h⟩)
    | command w p =>
      cases hd : decodeCommand w p with
      | ok i => exact .inr (.inr (.inl ⟨w, p, rest, i, rfl, hd, step_command h hd⟩))
      | error e => exact .inr (.inr (.inr ⟨w, p, rest, e, rfl, hd, step_illegal h hd⟩))

/-! ### Runs -/

theorem run_zero (s : State) : Sys2Proof.core.run 0 s = .next s := rfl

theorem run_succ {s t : State} (k : Nat) (h : step s = .next t) :
    Sys2Proof.core.run (k + 1) s = Sys2Proof.core.run k t := by
  have : Sys2Proof.core.step s = .next t := h
  simp only [Host.Core.run, this]

/-- A run of `j + k` steps is one of `j` steps, then one of `k`. -/
theorem run_add {s t : State} (j k : Nat) (h : Sys2Proof.core.run j s = .next t) :
    Sys2Proof.core.run (j + k) s = Sys2Proof.core.run k t := by
  induction j generalizing s with
  | zero =>
    rw [run_zero] at h
    cases h
    rw [Nat.zero_add]
  | succ j ih =>
    rw [Nat.succ_add]
    simp only [Host.Core.run] at h ⊢
    split at h
    · exact ih h
    · cases h
    · cases h

end Sys2Proof.Machine
end

