-- ==== Sys2Proof/Tests/Slice0.lean ====
section
/-! SUPPORT. Tests against words and values the spec writes out, and for every statement of
Certificates/Slice0/Obligations.lean that has hypotheses a concrete case that meets them together. -/

namespace Sys2Proof.Tests

open Sys2Proof Sys2Proof.Machine

-- One theorem at a time: each thread of a parallel run holds a stack of its own.
set_option Elab.async false

/-! ## Small states -/

/-- An ACTIVE session with OUTLEN 64 whose buffer holds the given bytes, at most 128 of them. -/
def activeWith (bytes : List Byte) : State :=
  { State.reset with
    phase := .active, outlen := 64, h := initialHash 64 0
    buf := Memory.writeList [] 0 bytes, cursor := BitVec.ofNat 8 bytes.length }

/-- A full block of one byte. -/
def blockOf (b : Byte) : List Byte := List.replicate 128 b

/-- The state after a FINALIZE of an empty session, as far as the checks see it. -/
def terminal : State := { State.reset with phase := .terminal, outlen := 64 }

/-- A FAULTED core with a code. -/
def faultedWith (code : BitVec 4) : State := { State.reset with phase := .faulted, fault := code }

/-- Present one command next. -/
def present (s : State) (w : CmdWord) (p : List Byte) : State := s.setInputs [.command w p]

/-- A next state of which `p` holds. -/
def nextIs (o : Host.Outcome State Fault Refusal) (p : State → Bool) : Bool :=
  match o with
  | .next t => p t
  | _ => false

/-- The status of the response given last. -/
def lastStatus (s : State) : Option Status := s.responses.getLast?.map Response.status

/-! ## WellFormed: an ill-formed command for each check -/

theorem test_wellFormed_init_refuses_short_key : (Instr.init 64 4 [0x61, 0x62]).wellFormed = false := by decide

theorem test_wellFormed_absorb_refuses_short_data : (Instr.absorb 2 [0x61]).wellFormed = false := by decide

theorem test_wellFormed_finalize_refuses_payload : (Instr.finalize [0x78]).wellFormed = false := by decide

theorem test_wellFormed_accepts_an_illegal_outlen : (Instr.init 0 0 []).wellFormed = true := by decide

/-! ## Decoding, from the patterns of 30_encoding.md -/

/-- R72: fourteen zeros, KEYLEN, OUTLEN, 0001; here KEYLEN 3 and OUTLEN 32 (R83). -/
theorem test_decode_init :
    decodeCommand 0b00000000000000_0000011_0100000_0001#32 [0x6B, 0x65, 0x79]
      = .ok (.init 32 3 [0x6B, 0x65, 0x79]) := rfl

/-- R79: the largest field values are still a command. -/
theorem test_decode_init_largest_fields :
    decodeCommand 0b00000000000000_1111111_1111111_0001#32 [] = .ok (.init 127 127 []) := rfl

/-- R78: the lowest and the highest reserved bit of INIT. -/
theorem test_decode_init_reserved :
    decodeCommand 0b00000000000001_0000000_1000000_0001#32 [] = .error .reservedBits ∧
    decodeCommand 0b10000000000000_0000000_1000000_0001#32 [] = .error .reservedBits := ⟨rfl, rfl⟩

/-- R73: LEN, 0010; here LEN 3 (R83) and the largest LEN. -/
theorem test_decode_absorb :
    decodeCommand 0b0000000000000000000000000011_0010#32 [0x61, 0x62, 0x63] = .ok (.absorb 3 [0x61, 0x62, 0x63]) ∧
    decodeCommand 0b1111111111111111111111111111_0010#32 [] = .ok (.absorb 268435455 []) := ⟨rfl, rfl⟩

/-- R74: twenty-eight zeros, 0011. -/
theorem test_decode_finalize :
    decodeCommand 0b0000000000000000000000000000_0011#32 [] = .ok (.finalize []) := rfl

/-- R78: the lowest and the highest reserved bit of FINALIZE. -/
theorem test_decode_finalize_reserved :
    decodeCommand 0x00000013#32 [] = .error .reservedBits ∧
    decodeCommand 0x80000003#32 [] = .error .reservedBits := ⟨rfl, rfl⟩

/-- R77: the reserved opcodes at the ends of their ranges. -/
theorem test_decode_reserved_opcodes :
    decodeCommand 0x00000000#32 [] = .error (.reservedOpcode 0x0) ∧
    decodeCommand 0x00000004#32 [] = .error (.reservedOpcode 0x4) ∧
    decodeCommand 0x0000000F#32 [] = .error (.reservedOpcode 0xF) := ⟨rfl, rfl, rfl⟩

/-- R55: the first byte of the transport carries bits 7..0. -/
theorem test_decode_bytes :
    decode [0x32, 0x00, 0x00, 0x00, 0x61, 0x62, 0x63, 0x03] = .ok (.absorb 3 [0x61, 0x62, 0x63], [0x03]) := rfl

/-- R83: the words of `INIT 64, ""`, `ABSORB` with LEN 3 and `FINALIZE`, numbered as the opcode table does. -/
theorem test_decodeTableWord :
    decodeTableWord 32 0x00000401 = some (.init 64 0 []) ∧
    decodeTableWord 32 0x00000032 = some (.absorb 3 [0, 0, 0]) ∧
    decodeTableWord 32 0x00000003 = some (.finalize []) ∧
    decodeTableWord 32 0x00000000 = none := ⟨rfl, rfl, rfl, rfl⟩

/-- The examples of R83, and the word of `ABSORBB`. -/
theorem test_assembler :
    asmInit 64 [] = .command 0x00000401 [] ∧ asmInit 32 [0x6B, 0x65, 0x79] = .command 0x00001A01 [0x6B, 0x65, 0x79] ∧
    asmAbsorb [0x61, 0x62, 0x63] = [.command 0x00000032 [0x61, 0x62, 0x63]] ∧
    asmAbsorbB 0x61 = .command 0x00000012 [0x61] := by decide

/-! ## One step of each command, against 95_test_vectors.md -/

/-- Section 3.1, row `INIT 64, ""` (R109). -/
theorem test_init_unkeyed :
    nextIs (exec (.init 64 0 []) State.reset) (fun t =>
      t.h[0] == 0x6A09E667F2BDC948 && t.h[1] == 0xBB67AE8584CAA73B && t.cursor == 0 && t.outlen == 64 &&
      t.phase == .active) = true := by decide

/-- Section 3.1, row `INIT 32, 6b6579`: the buffer is the key and zeros to its end. -/
theorem test_init_keyed :
    nextIs (exec (.init 32 3 [0x6B, 0x65, 0x79]) State.reset) (fun t =>
      t.h[0] == 0x6A09E667F2BDCA28 && t.cursor == 128 && t.buf.read 2 == some 0x79 &&
      t.buf.read 3 == some 0 && t.buf.read 127 == some 0 && t.counter == 0) = true := by decide +kernel

/-- Program P1, row 2 (R129). -/
theorem test_absorb_abc :
    nextIs (exec (.absorb 3 [0x61, 0x62, 0x63]) (activeWith [])) (fun t =>
      t.buf == [(0, 0x61), (1, 0x62), (2, 0x63)] && t.cursor == 3 && t.counter == 0) = true := by decide

/-- Section 4.3, row 4, with section 2.4, row 1: the carry into the high word comes before the compression. -/
theorem test_absorb_flush_carries :
    nextIs (exec (.absorb 1 [0x00]) { activeWith (blockOf 0) with tLo := 0xFFFFFFFFFFFFFF80 }) (fun t =>
      t.h == #v[0xF96013FC926706C6, 0xBCC002D1BA4CEB0E, 0x1337A4B623FE0E1A, 0xC499584BCF587693,
                0x3B894AF8DDF49B58, 0x4FDB078D2C3140D9, 0xA1452DB538A6FD07, 0xAF78D2E55E33DE82] &&
      t.tLo == 0 && t.tHi == 1 && t.cursor == 1) = true := by decide +kernel

/-- Section 1.2, the published digest of "abc". -/
theorem test_finalize_abc :
    nextIs (exec (.finalize []) (activeWith [0x61, 0x62, 0x63])) (fun t =>
      t.responses == [⟨.ok,
        [0xBA, 0x80, 0xA5, 0x3F, 0x98, 0x1C, 0x4D, 0x0D, 0x6A, 0x27, 0x97, 0xB6, 0x9F, 0x12, 0xF6, 0xE9,
         0x4C, 0x21, 0x2F, 0x14, 0x68, 0x5A, 0xC4, 0xB7, 0x4B, 0x12, 0xBB, 0x6F, 0xDB, 0xFF, 0xA2, 0xD1,
         0x7D, 0x87, 0xC5, 0x39, 0x2A, 0xAB, 0x79, 0x2D, 0xC2, 0x52, 0xD5, 0xDE, 0x45, 0x33, 0xCC, 0x95,
         0x18, 0xD3, 0x8A, 0xA8, 0xDB, 0xF1, 0x92, 0x5A, 0xB9, 0x23, 0x86, 0xED, 0xD4, 0x00, 0x99, 0x23]⟩] &&
      t.tLo == 3 && t.phase == .terminal && t.buf.read 127 == some 0) = true := by decide +kernel

/-- Program P3, rows 2 to 4: a full block, no zero fill, 16 digest bytes. -/
theorem test_finalize_full_block :
    nextIs (exec (.finalize []) { activeWith (blockOf 0xFF) with outlen := 16, h := initialHash 16 0 }) (fun t =>
      t.responses == [⟨.ok, [0x3B, 0x8C, 0x23, 0xE5, 0x7C, 0xB6, 0xE9, 0x36,
                             0x8A, 0x3E, 0x57, 0x50, 0xD8, 0xFD, 0xD4, 0x5C]⟩] &&
      t.tLo == 128 && t.buf.read 127 == some 0xFF) = true := by decide +kernel

/-! ## Witnesses: the invariant -/

theorem inv_reset : State.reset.Inv :=
  ⟨by decide, by decide, by decide, by decide, by decide, by decide, by decide, by decide⟩

theorem inv_active_empty : (activeWith []).Inv :=
  ⟨by decide, by decide, by decide, by decide, by decide, by decide, by decide, by decide⟩

theorem inv_active_full : (activeWith (blockOf 0xFF)).Inv :=
  ⟨by decide +kernel, by decide +kernel, by decide +kernel, by decide +kernel, by decide, by decide, by decide,
    by decide⟩

theorem inv_terminal : terminal.Inv :=
  ⟨by decide, by decide, by decide, by decide, by decide, by decide, by decide, by decide⟩

theorem inv_faulted : (faultedWith 3).Inv :=
  ⟨by decide, by decide, by decide, by decide, by decide, by decide, by decide, by decide⟩

/-- Whatever the host has still to present, the invariant is about the registers. -/
theorem inv_setInputs {s : State} (h : s.Inv) (l : List Input) : (s.setInputs l).Inv :=
  ⟨h.1, h.2, h.3, h.4, h.5, h.6, h.7, h.8⟩

/-! ## Witnesses: encoding -/

theorem witness_DecodeOfEncode :
    (Instr.init 127 127 (List.replicate 127 0)).wellFormed = true ∧
    (Instr.absorb 0 []).wellFormed = true ∧ (Instr.absorb 3 [0x61, 0x62, 0x63]).wellFormed = true ∧
    (Instr.finalize []).wellFormed = true := by decide +kernel

theorem witness_DecodedCommandReencodes :
    decodeCommand 0x0003FFF1#32 [] = .ok (.init 127 127 []) ∧
    decodeCommand 0xFFFFFFF2#32 [0x61] = .ok (.absorb 268435455 [0x61]) ∧
    decodeCommand 0x00000003#32 [0x78] = .ok (.finalize [0x78]) := ⟨rfl, rfl, rfl⟩

theorem witness_EveryWordHasOneMeaning :
    0x0003FFF1#32 &&& 0xFFFC000F#32 = 0x00000001#32 ∧ 0xFFFFFFF2#32 &&& 0x0000000F#32 = 0x00000002#32 ∧
    (0x00000013#32 &&& 0xFFFC000F#32 ≠ 0x00000001#32 ∧ 0x00000013#32 &&& 0x0000000F#32 ≠ 0x00000002#32 ∧
      0x00000013#32 ≠ 0x00000003#32) := by decide

theorem witness_AssemblerExpands :
    (127 : Nat) < 128 ∧ ([] : List Byte).length < 128 ∧ [(0x6B : Byte), 0x65, 0x79].length < 128 ∧
    ([] : List Byte).length ≤ 268435455 := by decide

/-! ## Witnesses: the step and its checks -/

theorem witness_StepRunsDecodedCommand :
    (present State.reset 0x00000401#32 []).inputs = [.command 0x00000401#32 []] ∧
    decodeCommand 0x00000401#32 [] = .ok (.init 64 0 []) := ⟨rfl, rfl⟩

theorem witness_PlacedWordRunsNext :
    decodeTableWord 32 0x00000401 = some (.init 64 0 []) ∧
    decodeTableWord 32 0x00000002 = some (.absorb 0 []) ∧
    decodeTableWord 32 0x00000003 = some (.finalize []) := ⟨rfl, rfl, rfl⟩

theorem witness_IdleCoreKeepsItsState : State.reset.inputs = [] := rfl

/-- Each way a word is illegal, at the ends of its range. -/
theorem witness_IllegalWordTakesIllegalCommand :
    (present State.reset 0x00000000#32 []).inputs = [.command 0x00000000#32 []] ∧
    State.reset.phase ≠ .faulted ∧ (activeWith []).phase ≠ .faulted ∧
    (0x00000000#32).toNat % 16 = 0 ∧ 4 ≤ (0x00000004#32).toNat % 16 ∧ 4 ≤ (0x0000000F#32).toNat % 16 ∧
    ((0x00040401#32).toNat % 16 = 1 ∧ (0x00040401#32).toNat / 262144 ≠ 0) ∧
    ((0x80000001#32).toNat % 16 = 1 ∧ (0x80000001#32).toNat / 262144 ≠ 0) ∧
    ((0x00000013#32).toNat % 16 = 3 ∧ (0x00000013#32).toNat / 16 ≠ 0) := by decide +kernel

/-- One byte too many, one too few, and a KEYLEN over 64. -/
theorem witness_WrongPayloadTakesPayloadMismatch :
    State.reset.phase ≠ .faulted ∧ terminal.phase ≠ .faulted ∧
    [(0x61 : Byte)].length ≠ (0 : BitVec 7).toNat ∧ ([] : List Byte).length ≠ (1 : BitVec 7).toNat ∧
    (List.replicate 64 (0 : Byte)).length ≠ (65 : BitVec 7).toNat ∧
    [(0x61 : Byte)].length ≠ (2 : BitVec 28).toNat ∧ [(0x61 : Byte)].length ≠ (0 : BitVec 28).toNat ∧
    [(0x78 : Byte)] ≠ [] := by decide

theorem witness_MisuseTakesSessionMisuse :
    (State.reset.phase = .uninit ∨ State.reset.phase = .terminal) ∧
    (terminal.phase = .uninit ∨ terminal.phase = .terminal) ∧
    ([] : List Byte).length = (0 : BitVec 28).toNat ∧ [(0x61 : Byte)].length = (1 : BitVec 28).toNat ∧
    ([] : List Byte).length = (0 : BitVec 7).toNat := by decide

/-- Codes 2, 3 and 4, each entered by one step. -/
theorem witness_FaultEntryWritesFaultAndPhaseOnly :
    (present State.reset 0x00000000#32 []).phase ≠ .faulted ∧
    (∃ t, step (present State.reset 0x00000000#32 []) = .next t ∧ t.phase = .faulted ∧ t.fault = 2) ∧
    (∃ t, step (present State.reset 0x00000003#32 []) = .next t ∧ t.phase = .faulted ∧ t.fault = 3) ∧
    (∃ t, step (present State.reset 0x00000022#32 [0x61]) = .next t ∧ t.phase = .faulted ∧ t.fault = 4) :=
  ⟨by decide, ⟨_, rfl, rfl, rfl⟩, ⟨_, rfl, rfl, rfl⟩, ⟨_, rfl, rfl, rfl⟩⟩

/-- Both clauses, with each code a fault records; the second also with nothing presented. -/
theorem witness_FaultedCoreOnlyAnswersItsFault :
    (present (faultedWith 3) 0x00000401#32 []).inputs = [.command 0x00000401#32 []] ∧
    (present (faultedWith 3) 0x00000401#32 []).phase = .faulted ∧
    (faultedWith 2).fault = Status.illegalCommand.code ∧ (faultedWith 3).fault = Status.sessionMisuse.code ∧
    (faultedWith 4).fault = Status.payloadMismatch.code ∧
    (present (faultedWith 3) 0x00000401#32 []).inputs.head? ≠ some .reset ∧
    (∃ t, step (present (faultedWith 3) 0x00000401#32 []) = .next t) ∧
    (faultedWith 2).inputs.head? ≠ some .reset ∧ (∃ t, step (faultedWith 2) = .next t) :=
  ⟨rfl, rfl, rfl, rfl, rfl, by decide, ⟨_, rfl⟩, by decide, ⟨_, rfl⟩⟩

theorem witness_ReservedFaultCodeIsRefused :
    (faultedWith 5).phase = .faulted ∧ 5 ≤ (faultedWith 5).fault.toNat ∧ 5 ≤ (faultedWith 15).fault.toNat := by
  decide

/-- The invariant and a presented command, for each outcome of R205 (section 7.3 and 7.1): the sticky code,
2, 4, 3, 1 and 0. -/
theorem witness_StatusFollowsPriority :
    (present (faultedWith 3) 0x00000401#32 []).Inv ∧ (present State.reset 0x00000013#32 [0x78]).Inv ∧
    (present (activeWith []) 0x00000401#32 []).Inv ∧ (present terminal 0x00000012#32 [0x61]).Inv ∧
    nextIs (step (present (faultedWith 3) 0x00000401#32 [])) (lastStatus · == some .sessionMisuse) = true ∧
    nextIs (step (present State.reset 0x00000013#32 [0x78])) (lastStatus · == some .illegalCommand) = true ∧
    nextIs (step (present State.reset 0x00000411#32 [0x61])) (lastStatus · == some .payloadMismatch) = true ∧
    nextIs (step (present terminal 0x00000012#32 [0x61])) (lastStatus · == some .sessionMisuse) = true ∧
    nextIs (step (present (activeWith []) 0x00000411#32 [])) (lastStatus · == some .invalidParameter) = true ∧
    nextIs (step (present (activeWith []) 0x00000002#32 [])) (lastStatus · == some .ok) = true :=
  ⟨inv_setInputs inv_faulted _, inv_setInputs inv_reset _, inv_setInputs inv_active_empty _,
    inv_setInputs inv_terminal _, by decide, by decide, by decide, by decide, by decide, by decide⟩

/-- A FINALIZE whose response has data, and an INIT whose response has none. -/
theorem witness_OneResponsePerCommand :
    (present (activeWith []) 0x00000003#32 []).Inv ∧
    (present (activeWith []) 0x00000003#32 []).inputs = [.command 0x00000003#32 []] ∧
    (present State.reset 0x00000401#32 []).Inv ∧
    (present State.reset 0x00000401#32 []).inputs = [.command 0x00000401#32 []] :=
  ⟨inv_setInputs inv_active_empty _, rfl, inv_setInputs inv_reset _, rfl⟩

theorem witness_OutlenWrittenByInitOnly :
    (present State.reset 0x00000401#32 []).inputs.head? ≠ some .reset ∧
    ∃ t, step (present State.reset 0x00000401#32 []) = .next t ∧ t.outlen ≠ State.reset.outlen :=
  ⟨by decide, _, rfl, by decide⟩

theorem witness_ResetInputResets :
    ((activeWith (blockOf 0xFF)).setInputs [.reset]).inputs = [.reset] := rfl

/-! ## Witnesses: INIT -/

/-- Legal and illegal parameters at the ends of their ranges, in each PHASE INIT is performed in. -/
theorem witness_InitEffect :
    State.reset.phase ≠ .faulted ∧ (activeWith []).phase ≠ .faulted ∧ terminal.phase ≠ .faulted ∧
    ([] : List Byte).length = (0 : BitVec 7).toNat ∧
    (List.replicate 64 (0 : Byte)).length = (64 : BitVec 7).toNat ∧
    (1 ≤ (1 : BitVec 7).toNat ∧ (64 : BitVec 7).toNat ≤ 64) ∧
    ¬(1 ≤ (0 : BitVec 7).toNat) ∧ ¬((65 : BitVec 7).toNat ≤ 64) ∧
    (List.replicate 65 (0 : Byte)).length = (65 : BitVec 7).toNat := by decide

theorem witness_ParameterWordSeedsHash :
    State.reset.phase ≠ .faulted ∧ (List.replicate 64 (0 : Byte)).length = (64 : BitVec 7).toNat ∧
    ([] : List Byte).length = (0 : BitVec 7).toNat ∧
    1 ≤ (1 : BitVec 7).toNat ∧ (64 : BitVec 7).toNat ≤ 64 ∧ (0 : BitVec 7).toNat ≤ 64 := by decide

/-- What the statement asks of a word and its payload length beside the failing field. -/
def initWordWithPayload (w : CmdWord) (n : Nat) : Bool :=
  w.toNat % 16 == 1 && w.toNat / 262144 == 0 && n == w.toNat / 2048 % 128

/-- Section 7.1: OUTLEN 0, OUTLEN 65, KEYLEN 65 and both fields 127. -/
theorem witness_FailingInitMutatesNothing :
    (activeWith []).phase ≠ .faulted ∧
    (present (activeWith []) 0x00000001#32 []).inputs = [.command 0x00000001#32 []] ∧
    (initWordWithPayload 0x00000001#32 0 = true ∧ (0x00000001#32).toNat / 16 % 128 = 0) ∧
    (initWordWithPayload 0x00000411#32 0 = true ∧ 65 ≤ (0x00000411#32).toNat / 16 % 128) ∧
    (initWordWithPayload 0x00020C01#32 65 = true ∧ 65 ≤ (0x00020C01#32).toNat / 2048 % 128) ∧
    (initWordWithPayload 0x0003FFF1#32 127 = true ∧ 65 ≤ (0x0003FFF1#32).toNat / 16 % 128) :=
  ⟨by decide, rfl, by decide, by decide, by decide, by decide⟩

theorem witness_KeyBlockIsDeferred :
    State.reset.phase ≠ .faulted ∧ [(0 : Byte)].length = (1 : BitVec 7).toNat ∧
    (List.replicate 64 (0 : Byte)).length = (64 : BitVec 7).toNat ∧
    1 ≤ (1 : BitVec 7).toNat ∧ (64 : BitVec 7).toNat ≤ 64 := by decide

/-! ## Witnesses: ABSORB -/

/-- The byte step with an empty buffer, with one byte of room, and with a full buffer; the payload clause; the
phases of the last clause. -/
theorem witness_ByteStep :
    (activeWith []).cursor.toNat < 128 ∧ (activeWith (List.replicate 127 0xFF)).cursor.toNat < 128 ∧
    (activeWith (blockOf 0xFF)).cursor = 128 ∧
    (∀ j < 128, ((activeWith (blockOf 0xFF)).buf.read j).isSome) ∧
    (activeWith (blockOf 0xFF)).phase = .active ∧ [(0x61 : Byte)].length = (1 : BitVec 28).toNat ∧
    State.reset.phase = .uninit ∧ terminal.phase = .terminal := by
  decide +kernel

theorem witness_AbsorbCompressesFullBlocks :
    (activeWith []).Inv ∧ (activeWith (blockOf 0xFF)).Inv ∧ (activeWith (blockOf 0xFF)).phase = .active ∧
    ([] : List Byte).length = (0 : BitVec 28).toNat ∧ (blockOf 0x61).length = (128 : BitVec 28).toNat :=
  ⟨inv_active_empty, inv_active_full, rfl, rfl, rfl⟩

/-- Two cuttings of "abc", one with an empty chunk. -/
theorem witness_ChunkingInvariance :
    (activeWith []).Inv ∧ (activeWith []).phase = .active ∧
    (∀ d ∈ [[0x61], [], [0x62, 0x63]], List.length (α := Byte) d < 268435456) ∧
    (∀ e ∈ [[0x61, 0x62, 0x63]], List.length (α := Byte) e < 268435456) ∧
    List.flatten [[(0x61 : Byte)], [], [0x62, 0x63]] = List.flatten [[0x61, 0x62, 0x63]] :=
  ⟨inv_active_empty, rfl, by decide, by decide, rfl⟩

theorem witness_CounterAddIs128Bit : (0 : Word).toNat ≤ 128 ∧ (128 : Word).toNat ≤ 128 := by decide

theorem witness_AbsorbFrame :
    (activeWith []).phase = .active ∧ [(0x61 : Byte)].length = (1 : BitVec 28).toNat ∧
    (∃ t, exec (.absorb 1 [0x61]) (activeWith []) = .next t) ∧
    ((1 : Nat) ≠ ((activeWith []).cursor.toNat + 0) % 128) ∧
    (activeWith []).cursor.toNat + [(0x61 : Byte)].length ≤ 128 :=
  ⟨rfl, by decide, ⟨_, rfl⟩, by decide, by decide⟩

theorem witness_CursorPastBufferFaults :
    { activeWith [] with cursor := 129 }.phase = .active ∧ [(0x61 : Byte)].length = (1 : BitVec 28).toNat ∧
    [(0x61 : Byte)] ≠ [] ∧ 128 < { activeWith [] with cursor := 129 }.cursor.toNat ∧
    128 < { activeWith [] with cursor := 255 }.cursor.toNat := by decide

/-! ## Witnesses: FINALIZE -/

theorem witness_FinalizeEffect :
    (activeWith []).phase = .active ∧ (activeWith []).outlen.toNat ≤ 64 ∧ (activeWith []).cursor.toNat ≤ 128 ∧
    (∀ i < (activeWith []).cursor.toNat, ((activeWith []).buf.read i).isSome) ∧
    (activeWith (blockOf 0xFF)).phase = .active ∧ (activeWith (blockOf 0xFF)).outlen.toNat ≤ 64 ∧
    (activeWith (blockOf 0xFF)).cursor.toNat ≤ 128 ∧
    (∀ i < (activeWith (blockOf 0xFF)).cursor.toNat, ((activeWith (blockOf 0xFF)).buf.read i).isSome) ∧
    State.reset.phase = .uninit ∧ terminal.phase = .terminal := by
  decide +kernel

/-- The premise, and the digest's first and last byte at OUTLEN 64. -/
theorem witness_DigestIsLittleEndian :
    (activeWith (blockOf 0xFF)).Inv ∧ (activeWith (blockOf 0xFF)).phase = .active ∧
    8 * (0 : Fin 8).val + (0 : Fin 8).val < (activeWith (blockOf 0xFF)).outlen.toNat ∧
    8 * (7 : Fin 8).val + (7 : Fin 8).val < (activeWith (blockOf 0xFF)).outlen.toNat :=
  ⟨inv_active_full, rfl, by decide, by decide⟩

theorem witness_EmptySessionCompressesZeroBlock :
    State.reset.phase ≠ .faulted ∧ 1 ≤ (1 : BitVec 7).toNat ∧ (1 : BitVec 7).toNat ≤ 64 ∧
    1 ≤ (64 : BitVec 7).toNat ∧ (64 : BitVec 7).toNat ≤ 64 := by decide

/-! ## Witnesses: COMPRESS -/

theorem witness_RotationWithin64Bits : (0 < 1 ∧ 1 < 64) ∧ (0 < 63 ∧ 63 < 64) := by decide

theorem witness_MessageWordsAreLittleEndian : (blockOf 0xFF).length = 128 := by decide +kernel

/-- An index a column call leaves alone. -/
theorem witness_MixingPrimitive :
    (1 : Fin 16) ≠ column0.a ∧ (1 : Fin 16) ≠ column0.b ∧ (1 : Fin 16) ≠ column0.c ∧ (1 : Fin 16) ≠ column0.d := by
  decide

theorem witness_LanesOfAHalfRoundCommute :
    ∀ i ∈ [column0.a, column0.b, column0.c, column0.d], i ∉ [column3.a, column3.b, column3.c, column3.d] := by
  decide

theorem witness_WorkingVectorSetUp : (0 : Fin 8).val < 4 ∧ (3 : Fin 8).val < 4 := by decide

/-- The quadruples of R143's table. -/
def tableQuads : Vector Quad 8 :=
  #v[column0, column1, column2, column3, diagonal0, diagonal1, diagonal2, diagonal3]

/-- R143's table meets R143's formula. -/
theorem witness_CompressFollowsSchedule :
    (∀ k : Fin 8, k.val < 4 → tableQuads[k].a.val = k.val ∧ tableQuads[k].b.val = 4 + k.val ∧
      tableQuads[k].c.val = 8 + k.val ∧ tableQuads[k].d.val = 12 + k.val) ∧
    (∀ k : Fin 8, 4 ≤ k.val → tableQuads[k].a.val = k.val - 4 ∧
      tableQuads[k].b.val = 4 + (k.val - 4 + 1) % 4 ∧ tableQuads[k].c.val = 8 + (k.val - 4 + 2) % 4 ∧
      tableQuads[k].d.val = 12 + (k.val - 4 + 3) % 4) := by decide

theorem witness_UnwrittenByteStopsCompress :
    State.reset.buf.read 0 = none ∧ (activeWith (List.replicate 127 0xFF)).buf.read 127 = none := by
  decide +kernel

/-! ## Witnesses: the whole machine -/

theorem witness_StepKeepsInvariant :
    (present (activeWith []) 0x00000032#32 [0x61, 0x62, 0x63]).Inv ∧
    ∃ t, step (present (activeWith []) 0x00000032#32 [0x61, 0x62, 0x63]) = .next t :=
  ⟨inv_setInputs inv_active_empty _, _, rfl⟩

theorem witness_StepNeverStops : (present (activeWith (blockOf 0xFF)) 0x00000003#32 []).Inv :=
  inv_setInputs inv_active_full _

/-- The state after reset, but for another chaining state, another OUTLEN and a stale byte. -/
def otherReset : State := { State.reset with h := iv, outlen := 64, buf := [(0, 0xFF)] }

/-- An ACTIVE session with a stale byte at its cursor. -/
def staleByte : State := { activeWith [] with buf := [(0, 0xFF)] }

theorem witness_UnspecifiedValuesAreNeverObserved :
    (State.reset.Inv ∧ otherReset.Inv ∧ State.reset.Agree otherReset ∧ State.reset ≠ otherReset) ∧
    ((activeWith []).Inv ∧ staleByte.Inv ∧ (activeWith []).Agree staleByte ∧ activeWith [] ≠ staleByte) :=
  ⟨⟨inv_reset,
      ⟨by decide, by decide, by decide, by decide, by decide, by decide, by decide, by decide⟩,
      ⟨rfl, rfl, rfl, rfl, by decide, by decide, by decide, by decide, by decide, by decide⟩, by decide⟩,
    ⟨inv_active_empty,
      ⟨by decide, by decide, by decide, by decide, by decide, by decide, by decide, by decide⟩,
      ⟨rfl, rfl, rfl, rfl, fun _ => rfl, by decide, by decide, by decide, by decide, by decide⟩, by decide⟩⟩

/-- An unkeyed session of the shortest digest and a keyed one of the longest, from two phases. -/
theorem witness_SessionComputesBlake2b :
    State.reset.phase ≠ .faulted ∧ terminal.phase ≠ .faulted ∧
    ([] : List Byte).length = (0 : BitVec 7).toNat ∧
    (List.replicate 64 (0 : Byte)).length = (64 : BitVec 7).toNat ∧
    1 ≤ (1 : BitVec 7).toNat ∧ (64 : BitVec 7).toNat ≤ 64 ∧
    ∀ d ∈ [[], [0x61, 0x62, 0x63]], List.length (α := Byte) d < 268435456 := by decide

theorem witness_HashPseudoCommandHashes :
    State.reset.phase ≠ .faulted ∧ (1 ≤ 1 ∧ 64 ≤ 64) ∧ ([] : List Byte).length ≤ 64 ∧
    (List.replicate 64 (0 : Byte)).length ≤ 64 := by decide

/-- Without a key and data, with the longest key and data in two pieces, one of them empty. -/
theorem witness_CompressionCount :
    State.reset.phase ≠ .faulted ∧ (activeWith []).phase ≠ .faulted ∧
    ([] : List Byte).length = (0 : BitVec 7).toNat ∧
    (List.replicate 64 (0 : Byte)).length = (64 : BitVec 7).toNat ∧
    1 ≤ (1 : BitVec 7).toNat ∧ (64 : BitVec 7).toNat ≤ 64 ∧ (0 : BitVec 7).toNat ≤ 64 ∧
    (∀ d ∈ ([] : List (List Byte)), d.length < 268435456) ∧
    ∀ d ∈ [[], [0x61, 0x62, 0x63]], List.length (α := Byte) d < 268435456 := by decide

end Sys2Proof.Tests
end

section
/-! ## Scope: the layer every session rests on

The counter as one 128-bit number, a stream's blocks compressed one after another, and the round trip of a
command word. -/

namespace Sys2Proof.Machine

/-! ### The byte counter -/

/-- The carry of R122 is that of the sum of the two words as numbers. -/
theorem addCarry_eq (lo n : Word) :
    addCarry lo n = if 18446744073709551616 ≤ lo.toNat + n.toNat then 1 else 0 := by
  have hlo := lo.isLt
  have hn := n.isLt
  simp only [addCarry, BitVec.lt_def, BitVec.toNat_add]
  congr 1
  rw [eq_iff_iff]
  omega

/-- The two words of the counter are added to as one number (R122, R123). -/
theorem counterAdd_counter (s : State) (n : Word) :
    (s.counterAdd n).counter = s.counter + n.setWidth 128 := by
  have hlo := s.tLo.isLt
  have hn := n.isLt
  apply BitVec.eq_of_toNat_eq
  simp only [State.counter, State.counterAdd_tLo, State.counterAdd_tHi, addCarry_eq, BitVec.toNat_append,
    BitVec.toNat_add, BitVec.toNat_setWidth]
  rw [← Nat.shiftLeft_add_eq_or_of_lt (by omega), ← Nat.shiftLeft_add_eq_or_of_lt hlo]
  simp only [Nat.shiftLeft_eq]
  split
  · show ((s.tHi.toNat + 1) % 2 ^ 64) * 2 ^ 64 + _ = _
    omega
  · show ((s.tHi.toNat + 0) % 2 ^ 64) * 2 ^ 64 + _ = _
    omega

@[simp] theorem counter_low (s : State) : s.counter.extractLsb' 0 64 = s.tLo :=
  BitVec.extractLsb'_append_eq_right

@[simp] theorem counter_high (s : State) : s.counter.extractLsb' 64 64 = s.tHi :=
  BitVec.extractLsb'_append_eq_left

/-! ### The blocks of a stream -/

/-- One non-final compression: the block is counted, then compressed (R121). -/
def compressNext (ht : Vector Word 8 × BitVec 128) (block : List Byte) : Vector Word 8 × BitVec 128 :=
  let t := ht.2 + 128
  (compress ht.1 (messageWords block) (t.extractLsb' 0 64) (t.extractLsb' 64 64) false, t)

@[simp] theorem compressBlocks_zero (ht : Vector Word 8 × BitVec 128) (bytes : List Byte) :
    compressBlocks 0 ht bytes = ht := rfl

theorem compressBlocks_succ (k : Nat) (ht : Vector Word 8 × BitVec 128) (bytes : List Byte) :
    compressBlocks (k + 1) ht bytes = compressBlocks k (compressNext ht (bytes.take 128)) (bytes.drop 128) := rfl

/-- The last block of a run of compressions, taken apart. -/
theorem compressBlocks_succ_last (k : Nat) (ht : Vector Word 8 × BitVec 128) (bytes : List Byte) :
    compressBlocks (k + 1) ht bytes =
      compressNext (compressBlocks k ht bytes) ((bytes.drop (128 * k)).take 128) := by
  induction k generalizing ht bytes with
  | zero => rfl
  | succ k ih =>
    rw [compressBlocks_succ, ih, compressBlocks_succ, List.drop_drop, Nat.mul_succ, Nat.add_comm]

/-- Bytes behind the blocks compressed make no difference. -/
theorem compressBlocks_append {k : Nat} {bytes : List Byte} (h : 128 * k ≤ bytes.length)
    (ht : Vector Word 8 × BitVec 128) (more : List Byte) :
    compressBlocks k ht (bytes ++ more) = compressBlocks k ht bytes := by
  induction k generalizing ht bytes with
  | zero => rfl
  | succ k ih =>
    have h128 : 128 ≤ bytes.length := by omega
    rw [compressBlocks_succ, compressBlocks_succ, List.take_append_of_le_length h128,
      List.drop_append_of_le_length h128, ih (by rw [List.length_drop]; omega)]

/-- A stream of at most one block is held back whole (R124). -/
theorem fullBlocks_of_length_le {bytes : List Byte} (h : bytes.length ≤ 128) : fullBlocks bytes = 0 := by
  rw [fullBlocks]
  omega

theorem mul_fullBlocks_le (bytes : List Byte) : 128 * fullBlocks bytes ≤ bytes.length := by
  rw [fullBlocks]
  omega

/-! ### Command words -/

/-- A command's word with the command's payload decodes to the command (R72 to R75). -/
theorem decodeCommand_encodeWord (i : Instr) : decodeCommand (encodeWord i) i.payload = .ok i := by
  cases i with
  | init o k key =>
    have ho := o.isLt
    have hk := k.isLt
    have hw := encodeWord_init_toNat o k key
    have hop : fieldOp (encodeWord (.init o k key)) = opInit :=
      BitVec.eq_of_toNat_eq (by rw [fieldOp_toNat, hw, opInit, BitVec.toNat_ofNat]; omega)
    have hres : fieldInitReserved (encodeWord (.init o k key)) = 0 :=
      BitVec.eq_of_toNat_eq (by rw [fieldInitReserved_toNat, hw]; show _ = 0; omega)
    have hout : fieldOutlen (encodeWord (.init o k key)) = o :=
      BitVec.eq_of_toNat_eq (by rw [fieldOutlen_toNat, hw]; omega)
    have hkey : fieldKeylen (encodeWord (.init o k key)) = k :=
      BitVec.eq_of_toNat_eq (by rw [fieldKeylen_toNat, hw]; omega)
    rw [decodeCommand, if_pos hop, if_pos hres, hout, hkey]
    rfl
  | absorb n data =>
    have hn := n.isLt
    have hw := encodeWord_absorb_toNat n data
    have hop : fieldOp (encodeWord (.absorb n data)) = opAbsorb :=
      BitVec.eq_of_toNat_eq (by rw [fieldOp_toNat, hw, opAbsorb, BitVec.toNat_ofNat]; omega)
    have hlen : fieldLen (encodeWord (.absorb n data)) = n :=
      BitVec.eq_of_toNat_eq (by rw [fieldLen_toNat, hw]; omega)
    rw [decodeCommand, hop, if_neg (by decide), if_pos rfl, hlen]
    rfl
  | finalize p =>
    rw [encodeWord_finalize]
    rfl

/-- A command presented by its own word is the one the step runs. -/
theorem step_encodeWord {s : State} (i : Instr) {rest : List Input}
    (h : s.inputs = .command (encodeWord i) i.payload :: rest) : step s = exec i (s.setInputs rest) :=
  step_command h (decodeCommand_encodeWord i)

end Sys2Proof.Machine
end

section
/-! ## Scope: a session as the stream it has taken in

`State.HasAbsorbed` relates the registers of a session to the byte stream it has taken in; INIT establishes it,
every ABSORB byte extends the stream by that byte, and FINALIZE then answers the hash of the stream. -/

namespace Sys2Proof.Machine

/-- The session started from a chaining state and a counter, and `stream` came in: its full blocks are
compressed, the rest is held back below the cursor (R126). -/
structure State.HasAbsorbed (s : State) (start : Vector Word 8 × BitVec 128) (stream : List Byte) : Prop where
  compressed : (s.h, s.counter) = compressBlocks (fullBlocks stream) start stream
  held : s.pending = stream.drop (128 * fullBlocks stream)
  written : ∀ i < s.cursor.toNat, (s.buf.read i).isSome

/-- What ABSORB never writes: PHASE, FAULT, OUTLEN and the two channels. -/
structure State.SameControl (s t : State) : Prop where
  phase : t.phase = s.phase
  fault : t.fault = s.fault
  outlen : t.outlen = s.outlen
  inputs : t.inputs = s.inputs
  responses : t.responses = s.responses

theorem State.SameControl.refl (s : State) : s.SameControl s := ⟨rfl, rfl, rfl, rfl, rfl⟩

theorem State.SameControl.trans {s t u : State} (h : s.SameControl t) (h' : t.SameControl u) :
    s.SameControl u :=
  ⟨h'.phase.trans h.phase, h'.fault.trans h.fault, h'.outlen.trans h.outlen, h'.inputs.trans h.inputs,
    h'.responses.trans h.responses⟩

/-- The same response keeps two states alike. -/
theorem State.SameControl.respond {s t : State} (h : s.SameControl t) (st : Status) (data : List Byte) :
    (s.respond st data).SameControl (t.respond st data) :=
  ⟨h.phase, h.fault, h.outlen, h.inputs, by simp [h.responses]⟩

section
variable {s t : State} {start : Vector Word 8 × BitVec 128} {stream : List Byte}

theorem State.HasAbsorbed.setInputs (h : s.HasAbsorbed start stream) (l : List Input) :
    (s.setInputs l).HasAbsorbed start stream := ⟨h.compressed, h.held, h.written⟩

theorem State.HasAbsorbed.setPhase (h : s.HasAbsorbed start stream) (p : Phase) :
    (s.setPhase p).HasAbsorbed start stream := ⟨h.compressed, h.held, h.written⟩

theorem State.HasAbsorbed.respond (h : s.HasAbsorbed start stream) (st : Status) (data : List Byte) :
    (s.respond st data).HasAbsorbed start stream := ⟨h.compressed, h.held, h.written⟩

/-- The cursor counts the bytes held back. -/
theorem State.HasAbsorbed.cursor_eq (h : s.HasAbsorbed start stream) :
    s.cursor.toNat = stream.length - 128 * fullBlocks stream := by
  rw [← State.pending_length, h.held, List.length_drop]

theorem State.HasAbsorbed.cursor_le (h : s.HasAbsorbed start stream) : s.cursor.toNat ≤ 128 := by
  rw [h.cursor_eq, fullBlocks]
  omega

/-- Bytes that fit in the buffer have been taken in from where the registers stand. -/
theorem State.hasAbsorbed_pending (hc : s.cursor.toNat ≤ 128)
    (hw : ∀ i < s.cursor.toNat, (s.buf.read i).isSome) : s.HasAbsorbed (s.h, s.counter) s.pending := by
  have hz : fullBlocks s.pending = 0 := fullBlocks_of_length_le (by rwa [State.pending_length])
  exact ⟨by rw [hz, compressBlocks_zero], by rw [hz, Nat.mul_zero, List.drop_zero], hw⟩

/-! ### ABSORB -/

theorem cursor_add_one_toNat {c : BitVec 8} (h : c.toNat < 128) : (c + 1).toNat = c.toNat + 1 := by
  bv_omega

/-- The byte written at the cursor joins the bytes held back. -/
theorem pending_write_cursor {s : State} (b : Byte) (h : s.cursor.toNat < 128) :
    ((s.setBuf (s.buf.write s.cursor.toNat b)).setCursor (s.cursor + 1)).pending = s.pending ++ [b] := by
  have hold : (s.buf.write s.cursor.toNat b).bytes 0 s.cursor.toNat = s.buf.bytes 0 s.cursor.toNat :=
    Memory.bytes_congr fun j _ hj => Memory.read_write_other _ _ (by omega)
  rw [State.pending_eq_bytes, State.pending_eq_bytes, State.setCursor_cursor, State.setCursor_buf,
    State.setBuf_buf, cursor_add_one_toNat h, Memory.bytes_add, hold]
  simp [Memory.bytes]

/-- A byte that finds room is held back with the others. -/
theorem State.HasAbsorbed.write_cursor (h : s.HasAbsorbed start stream) (hlt : s.cursor.toNat < 128) (b : Byte) :
    ((s.setBuf (s.buf.write s.cursor.toNat b)).setCursor (s.cursor + 1)).HasAbsorbed start (stream ++ [b]) := by
  have hle := mul_fullBlocks_le stream
  have hfull : fullBlocks (stream ++ [b]) = fullBlocks stream := by
    have hc := h.cursor_eq
    rw [fullBlocks] at hc ⊢
    rw [fullBlocks, List.length_append, List.length_singleton]
    omega
  refine ⟨?_, ?_, fun i hi => ?_⟩
  · rw [hfull, compressBlocks_append hle]
    exact h.compressed
  · rw [hfull, pending_write_cursor b hlt, h.held, List.drop_append_of_le_length hle]
  · rw [State.setCursor_cursor, cursor_add_one_toNat hlt] at hi
    rw [State.setCursor_buf, State.setBuf_buf, Memory.read_write]
    split
    · rfl
    · exact h.written i (by omega)

/-- A byte that finds the buffer full compresses it and is held back alone (R121, R124). -/
theorem State.HasAbsorbed.flush_write (h : s.HasAbsorbed start stream) (hfull : s.cursor = 128) (b : Byte) :
    ((((s.counterAdd 128).setHash (compress s.h (messageWords (s.buf.bytes 0 128)) (s.counterAdd 128).tLo
      (s.counterAdd 128).tHi false)).setBuf (s.buf.write 0 b)).setCursor 1).HasAbsorbed start
        (stream ++ [b]) := by
  have hc : stream.length - 128 * fullBlocks stream = 128 := by rw [← h.cursor_eq, hfull]; rfl
  have hle : 128 * (fullBlocks stream + 1) ≤ stream.length := by omega
  have hlen : stream.length = 128 * (fullBlocks stream + 1) := by omega
  have hnext : fullBlocks (stream ++ [b]) = fullBlocks stream + 1 := by
    rw [fullBlocks, List.length_append, List.length_singleton]
    omega
  have hblock : (stream.drop (128 * fullBlocks stream)).take 128 = s.buf.bytes 0 128 := by
    have hp := s.pending_eq_bytes
    rw [h.held, hfull] at hp
    rw [hp]
    exact List.take_of_length_le (by rw [Memory.bytes_length]; decide)
  refine ⟨?_, ?_, fun i hi => ?_⟩
  · have ht : (s.counterAdd 128).counter = s.counter + 128 := counterAdd_counter s 128
    rw [hnext, compressBlocks_append hle, compressBlocks_succ_last, ← h.compressed, hblock, compressNext]
    simp only [State.setCursor_h, State.setBuf_h, State.setHash_h, State.setCursor_counter,
      State.setBuf_counter, State.setHash_counter, ← ht, counter_low, counter_high]
  · rw [hnext, List.drop_append_of_le_length hle, List.drop_of_length_le (by omega), State.pending_eq_bytes]
    simp [Memory.bytes]
  · have hi' : i = 0 := by simpa using hi
    simp [hi']

/-- One byte of a payload extends the stream by that byte. -/
theorem absorbByte_of_hasAbsorbed (h : s.HasAbsorbed start stream) (b : Byte) :
    ∃ t, absorbByte b s = .ok t ∧ t.HasAbsorbed start (stream ++ [b]) ∧ s.SameControl t := by
  rcases Nat.lt_or_eq_of_le h.cursor_le with hlt | heq
  · exact ⟨_, absorbByte_of_lt hlt, h.write_cursor hlt b, rfl, rfl, rfl, rfl, rfl⟩
  · have hfull : s.cursor = 128 := BitVec.eq_of_toNat_eq heq
    exact ⟨_, absorbByte_of_full hfull fun j hj => h.written j (by omega), h.flush_write hfull b,
      rfl, rfl, rfl, rfl, rfl⟩

/-- A payload extends the stream by itself (R120). -/
theorem absorbBytes_of_hasAbsorbed (h : s.HasAbsorbed start stream) (data : List Byte) :
    ∃ t, absorbBytes data s = .ok t ∧ t.HasAbsorbed start (stream ++ data) ∧ s.SameControl t := by
  induction data generalizing s stream with
  | nil => exact ⟨s, rfl, by rwa [List.append_nil], .refl s⟩
  | cons b data ih =>
    obtain ⟨u, hu, habs, hsame⟩ := absorbByte_of_hasAbsorbed h b
    obtain ⟨t, ht, habs', hsame'⟩ := ih habs
    refine ⟨t, ?_, ?_, hsame.trans hsame'⟩
    · rw [absorbBytes, hu]
      exact ht
    · rwa [List.append_assoc] at habs'

/-- ABSORB in an ACTIVE session takes its payload into the stream and answers OK. -/
theorem exec_absorb_of_hasAbsorbed (h : s.HasAbsorbed start stream) (ha : s.phase = .active)
    {len : BitVec 28} {data : List Byte} (hl : data.length = len.toNat) :
    ∃ t, exec (.absorb len data) s = .next t ∧ t.HasAbsorbed start (stream ++ data) ∧
      (s.respond .ok []).SameControl t := by
  obtain ⟨t, ht, habs, hsame⟩ := absorbBytes_of_hasAbsorbed h data
  refine ⟨t.respond .ok [], ?_, habs.respond _ _, hsame.respond _ _⟩
  rw [exec_absorb_of_active ha hl, performAbsorb, ht]
  rfl

/-! ### FINALIZE -/

/-- FINALIZE answers the hash of the stream its session has taken in (R180, R187). -/
theorem exec_finalize_of_hasAbsorbed {k : BitVec 7} {key data : List Byte} (ha : s.phase = .active)
    (h : s.HasAbsorbed (initialHash s.outlen k, 0) (sessionStream key data)) :
    ∃ t, exec (.finalize []) s = .next t ∧ t.phase = .terminal ∧ t.inputs = s.inputs ∧
      t.responses = s.responses ++ [⟨.ok, blake2b s.outlen k key data⟩] := by
  have hcount : (s.counterAdd (cursorWord s.cursor)).counter
      = s.counter + BitVec.ofNat 128 s.pending.length := by
    rw [counterAdd_counter, State.pending_length]
    congr 1
    apply BitVec.eq_of_toNat_eq
    simp [cursorWord]
  have hdigest : blake2b s.outlen k key data = (serialize (compress s.h
      (messageWords (s.pending ++ zeroFill s.cursor)) (s.counterAdd (cursorWord s.cursor)).tLo
      (s.counterAdd (cursorWord s.cursor)).tHi true)).take s.outlen.toNat := by
    simp only [blake2b, ← h.compressed, ← h.held, ← hcount, counter_low, counter_high]
    rw [State.pending_length]
    rfl
  have hexec := exec_finalize_of_active ha
  rw [performFinalize_of_written h.cursor_le h.written] at hexec
  exact ⟨_, hexec, rfl, rfl, by rw [hdigest]; rfl⟩

end

/-! ### INIT -/

theorem beginSession_counter (s : State) (o k : BitVec 7) : (s.beginSession o k).counter = 0 := by
  rw [State.counter, State.beginSession_tHi, State.beginSession_tLo]
  decide

/-- A session without a key has taken in nothing (R105). -/
theorem beginSession_hasAbsorbed (s : State) (o k : BitVec 7) :
    (s.beginSession o k).HasAbsorbed (initialHash o k, 0) [] := by
  have h := State.hasAbsorbed_pending (s := s.beginSession o k) (by simp) (by simp)
  rwa [beginSession_counter] at h

/-- A session with a key has taken in the key block, and compressed nothing (R104). -/
theorem keyedSession_hasAbsorbed (s : State) (o k : BitVec 7) {key : List Byte} (h : key.length ≤ 128) :
    (((s.beginSession o k).setBuf (s.buf.writeList 0 (keyBlock key))).setCursor 128).HasAbsorbed
      (initialHash o k, 0) (keyBlock key) := by
  have hlen := keyBlock_length h
  have hz : fullBlocks (keyBlock key) = 0 := fullBlocks_of_length_le hlen.le
  refine ⟨?_, ?_, fun i hi => ?_⟩
  · rw [hz, compressBlocks_zero, State.setCursor_counter, State.setBuf_counter, beginSession_counter]
    rfl
  · rw [hz, State.pending_eq_bytes]
    exact bytes_keyBlock s.buf h
  · have hi' : i < (keyBlock key).length := by rwa [hlen]
    rw [State.setCursor_buf, State.setBuf_buf, Memory.read_writeList, if_pos (by omega), Nat.sub_zero,
      List.getElem?_eq_getElem hi']
    rfl

/-- A legal INIT starts a session that has taken in the key block, if there is a key (R100). -/
theorem exec_init_hasAbsorbed {s : State} {o k : BitVec 7} {key : List Byte} (hp : s.phase ≠ .faulted)
    (hl : key.length = k.toNat) (ho1 : 1 ≤ o.toNat) (ho : o.toNat ≤ 64) (hk : k.toNat ≤ 64) :
    ∃ t, exec (.init o k key) s = .next t ∧ t.HasAbsorbed (initialHash o k, 0) (sessionStream key []) ∧
      t.phase = .active ∧ t.fault = s.fault ∧ t.outlen = o ∧ t.inputs = s.inputs ∧
      t.responses = s.responses ++ [⟨.ok, []⟩] := by
  have h128 : key.length ≤ 128 := by omega
  have hexec := exec_init_of_pass (o := o) hp hl
  rw [if_pos (legalParameters_iff.mpr ⟨ho1, ho, hk⟩), performInit_of_le h128, finish_ok] at hexec
  have hnil : key = [] ↔ k = 0 := by
    rw [← List.length_eq_zero_iff, hl]
    exact BitVec.toNat_eq (y := 0) |>.symm
  refine ⟨_, hexec, State.HasAbsorbed.respond (.setPhase ?_ _) _ _, rfl, ?_, ?_, ?_, ?_⟩
  · rw [sessionStream, List.append_nil]
    by_cases hk0 : k = 0
    · rw [if_pos hk0, if_pos (hnil.mpr hk0)]
      exact beginSession_hasAbsorbed s o k
    · rw [if_neg hk0, if_neg (mt hnil.mp hk0)]
      exact keyedSession_hasAbsorbed s o k h128
  all_goals
    split
    all_goals rfl

/-! ### Runs of commands -/

/-- The ABSORB the host presents for data its LEN field can count is run on that data. -/
theorem step_absorbInput {s : State} {data : List Byte} {rest : List Input}
    (h : s.inputs = absorbInput data :: rest) :
    step s = exec (.absorb (BitVec.ofNat 28 data.length) data) (s.setInputs rest) :=
  step_encodeWord _ h

/-- Successive ABSORBs in an ACTIVE session take their payloads into the stream in order, each answered OK
(R54, R125). -/
theorem run_absorbs_of_hasAbsorbed {s : State} {start : Vector Word 8 × BitVec 128} {stream : List Byte}
    {ds : List (List Byte)} {rest : List Input} (h : s.HasAbsorbed start stream) (ha : s.phase = .active)
    (hin : s.inputs = ds.map absorbInput ++ rest) (hds : ∀ d ∈ ds, d.length < 268435456) :
    ∃ t : State, Sys2Proof.core.run ds.length s = .next t ∧ t.HasAbsorbed start (stream ++ ds.flatten) ∧
      t.phase = .active ∧ t.fault = s.fault ∧ t.outlen = s.outlen ∧ t.inputs = rest ∧
      t.responses = s.responses ++ List.replicate ds.length ⟨.ok, []⟩ := by
  induction ds generalizing s stream with
  | nil => exact ⟨s, run_zero s, by simpa using h, ha, rfl, rfl, hin, by simp⟩
  | cons d ds ih =>
    have hl : d.length = (BitVec.ofNat 28 d.length).toNat := by
      have := hds d List.mem_cons_self
      rw [BitVec.toNat_ofNat, Nat.mod_eq_of_lt (by omega)]
    obtain ⟨u, hu, habs, hsame⟩ := exec_absorb_of_hasAbsorbed
      (h.setInputs (ds.map absorbInput ++ rest)) ha hl
    obtain ⟨t, ht, habs', hphase, hfault, hout, hrest, hresp⟩ := ih habs (hsame.phase.trans ha) hsame.inputs
      fun e he => hds e (List.mem_cons_of_mem _ he)
    refine ⟨t, ?_, ?_, hphase, hfault.trans hsame.fault, hout.trans hsame.outlen, hrest, ?_⟩
    · rw [List.length_cons, run_succ _ ((step_absorbInput hin).trans hu)]
      exact ht
    · rwa [List.append_assoc] at habs'
    · rw [hresp, hsame.responses]
      simp [List.replicate_succ]

/-- INIT and the ABSORBs after it leave an ACTIVE session that has taken in the key block and the payloads. -/
theorem run_session_open {s : State} {o k : BitVec 7} {key : List Byte} {ds : List (List Byte)}
    {rest : List Input} (hp : s.phase ≠ .faulted) (hl : key.length = k.toNat) (ho1 : 1 ≤ o.toNat)
    (ho : o.toNat ≤ 64) (hk : k.toNat ≤ 64) (hds : ∀ d ∈ ds, d.length < 268435456) :
    ∃ t : State, Sys2Proof.core.run (ds.length + 1)
        (s.setInputs (initInput o k key :: ds.map absorbInput ++ rest)) = .next t ∧
      t.HasAbsorbed (initialHash o k, 0) (sessionStream key ds.flatten) ∧
      t.phase = .active ∧ t.outlen = o ∧ t.inputs = rest ∧
      t.responses = s.responses ++ List.replicate (ds.length + 1) ⟨.ok, []⟩ := by
  obtain ⟨a, ha, habs, hphase, -, hout, hin, hresp⟩ :=
    exec_init_hasAbsorbed (s := s.setInputs (ds.map absorbInput ++ rest)) hp hl ho1 ho hk
  obtain ⟨t, ht, habs', hphase', -, hout', hin', hresp'⟩ := run_absorbs_of_hasAbsorbed habs hphase hin hds
  refine ⟨t, ?_, ?_, hphase', hout'.trans hout, hin', ?_⟩
  · have hstep : step (s.setInputs (initInput o k key :: (ds.map absorbInput ++ rest))) = .next a :=
      (step_encodeWord (.init o k key) rfl).trans ha
    exact (run_succ ds.length hstep).trans ht
  · rwa [sessionStream, List.append_nil] at habs'
  · rw [hresp', hresp]
    simp [List.replicate_succ]

/-- Settles O47: INIT and the ABSORBs take the message in as one stream, and FINALIZE hashes that stream. -/
theorem sessionComputesBlake2b : Obligations.SessionComputesBlake2b := by
  intro s o k key ds hp hl ho1 ho hk hds
  obtain ⟨a, hrun, habs, hphase, rfl, hin, hresp⟩ :=
    run_session_open (rest := [finalizeInput]) hp hl ho1 ho hk hds
  obtain ⟨t, ht, hterm, hin', hresp'⟩ :=
    exec_finalize_of_hasAbsorbed (s := a.setInputs []) hphase (habs.setInputs [])
  refine ⟨t, ?_, hterm, hin', ?_⟩
  · rw [run_add (ds.length + 1) 1 hrun, run_succ 0 ((step_encodeWord (.finalize []) hin).trans ht), run_zero]
  · rw [hresp', State.setInputs_responses, hresp]
    rfl

end Sys2Proof.Machine
end

section
/-! ## Scope: what a step is, and the rotation -/

namespace Sys2Proof.Machine

theorem decodeTableWord_eq_some {nbits w : Nat} {i : Instr} :
    decodeTableWord nbits w = some i ↔
      decodeCommand (tableWord nbits w) (tablePayload (tableWord nbits w)) = .ok i := by
  rw [decodeTableWord]
  split
  · rename_i j hj
    rw [hj, Option.some.injEq, Except.ok.injEq]
  · rename_i e he
    simp [he]

/-- Settles O9: the placed word is the head of the inputs, and taking it gives the state back. -/
theorem placedWordRunsNext : Obligations.PlacedWordRunsNext := by
  intro s nbits w i h
  exact step_command (s := s.withFetchWord nbits w) rfl (decodeTableWord_eq_some.mp h)

/-- Settles O10: with nothing presented the step is the idle one. -/
theorem idleCoreKeepsItsState : Obligations.IdleCoreKeepsItsState :=
  fun _ h => step_idle h

/-- The shift form of R10 is the rotation of the bit string to the right. -/
theorem rotr_eq_rotateRight (x : Word) {n : Nat} (h : n < 64) : rotr x n = x.rotateRight n := by
  rw [rotr, BitVec.rotateRight_def, Nat.mod_eq_of_lt h]

/-- By 63 it is the rotation by 1 to the left (R142 (e)). -/
theorem rotr_63_eq_rotateLeft (x : Word) : rotr x 63 = x.rotateLeft 1 := by
  rw [rotr, BitVec.rotateLeft_def, BitVec.or_comm]

/-- Settles O35, from the two forms of the rotation. -/
theorem rotationWithin64Bits : Obligations.RotationWithin64Bits :=
  ⟨fun x _ _ h => rotr_eq_rotateRight x h, rotr_63_eq_rotateLeft⟩

end Sys2Proof.Machine
end

section
/-! ## Scope: which check decides a command, and what the operations leave

`Decision` says which check of 60_exceptions.md R205 a command ends at, from the command and PHASE alone, so that
one case split serves statements about one run and about two. -/

namespace Sys2Proof.Machine

/-! ### The deciding check -/

/-- What the core does with a decoded word, legal or not. -/
def runDecoded : Except DecodeError Instr → State → Host.Outcome State Fault Refusal
  | .ok i, s => exec i s
  | .error _, s => illegalWord s

theorem step_runDecoded {s : State} {w : CmdWord} {p : List Byte} {rest : List Input}
    (h : s.inputs = .command w p :: rest) : step s = runDecoded (decodeCommand w p) (s.setInputs rest) := by
  cases hd : decodeCommand w p with
  | ok i => exact step_command h hd
  | error e => exact step_illegal h hd

/-- In phase `p` the word decoded to `d` is answered by `f`: the ends of R205, and the three effects. -/
inductive Decision (p : Phase) :
    Except DecodeError Instr → (State → Host.Outcome State Fault Refusal) → Prop where
  /-- The sticky answer of R207. -/
  | sticky (d : Except DecodeError Instr) (hp : p = .faulted) : Decision p d answerFaulted
  /-- Fault entry, R206. -/
  | trap (d : Except DecodeError Instr) (e : Trap) (hp : p ≠ .faulted) : Decision p d fun s => .next (raise e s)
  /-- InvalidParameter, R102. -/
  | reject (d : Except DecodeError Instr) (hp : p ≠ .faulted) :
    Decision p d fun s => .next (s.respond .invalidParameter [])
  /-- A legal INIT, R100. -/
  | init (o k : BitVec 7) (key : List Byte) (hp : p ≠ .faulted) (hl : key.length = k.toNat)
    (hlegal : 1 ≤ o.toNat ∧ o.toNat ≤ 64 ∧ k.toNat ≤ 64) :
    Decision p (.ok (.init o k key)) fun s => finish (performInit o k key s)
  /-- ABSORB in a session, R120. -/
  | absorb (n : BitVec 28) (data : List Byte) (hp : p = .active) (hl : data.length = n.toNat) :
    Decision p (.ok (.absorb n data)) fun s => finish (performAbsorb data s)
  /-- FINALIZE in a session, R180. -/
  | finalize (hp : p = .active) : Decision p (.ok (.finalize [])) fun s => finish (performFinalize s)

/-- A well-formed command outside FAULTED ends at a later check or has its effect. -/
theorem exec_decision {p : Phase} (hp : p ≠ .faulted) {i : Instr} (hl : i.payload.length = i.declaredLength) :
    ∃ f, Decision p (.ok i) f ∧ ∀ s : State, s.phase = p → exec i s = f s := by
  cases i with
  | init o k key =>
    have hl : key.length = k.toNat := hl
    by_cases hlegal : legalParameters o k = true
    · refine ⟨_, .init o k key hp hl (legalParameters_iff.mp hlegal), ?_⟩
      rintro s rfl
      rw [exec_init_of_pass hp hl, if_pos hlegal]
    · refine ⟨_, .reject _ hp, ?_⟩
      rintro s rfl
      rw [exec_init_of_pass hp hl, if_neg hlegal]
  | absorb n data =>
    by_cases ha : p = .active
    · exact ⟨_, .absorb n data ha hl, fun s hs => exec_absorb_of_active (hs.trans ha) hl⟩
    · refine ⟨_, .trap _ .sessionMisuse hp, ?_⟩
      rintro s rfl
      exact exec_absorb_of_misuse hp ha hl
  | finalize payload =>
    obtain rfl : payload = [] := List.length_eq_zero_iff.mp hl
    by_cases ha : p = .active
    · exact ⟨_, .finalize ha, fun s hs => exec_finalize_of_active (hs.trans ha)⟩
    · refine ⟨_, .trap _ .sessionMisuse hp, ?_⟩
      rintro s rfl
      exact exec_finalize_of_misuse hp ha

/-- Every word meets a deciding check, the same one in all states of a phase. -/
theorem runDecoded_decision (p : Phase) (d : Except DecodeError Instr) :
    ∃ f, Decision p d f ∧ ∀ s : State, s.phase = p → runDecoded d s = f s := by
  by_cases hp : p = .faulted
  · refine ⟨_, .sticky d hp, fun s hs => ?_⟩
    cases d with
    | ok i => exact exec_of_faulted i (hs.trans hp)
    | error e => exact illegalWord_of_faulted (hs.trans hp)
  · cases d with
    | error e =>
      refine ⟨_, .trap _ .illegalCommand hp, ?_⟩
      rintro s rfl
      exact illegalWord_of_not_faulted hp
    | ok i =>
      by_cases hl : i.payload.length = i.declaredLength
      · exact exec_decision hp hl
      · refine ⟨_, .trap _ .payloadMismatch hp, ?_⟩
        rintro s rfl
        exact exec_of_not_wellFormed hp (by simpa [Instr.wellFormed] using hl)

/-- Everything a step can be, with the check that decides a command. -/
theorem step_decision (s : State) :
    (s.inputs = [] ∧ step s = .next s) ∨
    (∃ rest, s.inputs = .reset :: rest ∧ step s = .next (takeReset (s.setInputs rest))) ∨
    (∃ w pl rest f, s.inputs = .command w pl :: rest ∧ Decision s.phase (decodeCommand w pl) f ∧
      ∀ u : State, u.phase = s.phase → u.inputs = s.inputs → step u = f (u.setInputs rest)) := by
  rcases h : s.inputs with _ | ⟨c, rest⟩
  · exact .inl ⟨rfl, step_idle h⟩
  · cases c with
    | reset => exact .inr (.inl ⟨rest, rfl, step_reset h⟩)
    | command w pl =>
      obtain ⟨f, hf, hrun⟩ := runDecoded_decision s.phase (decodeCommand w pl)
      exact .inr (.inr ⟨w, pl, rest, f, rfl, hf, fun u hp hin => (step_runDecoded hin).trans (hrun _ hp)⟩)

/-- A decoded command carries the payload that came with the word. -/
theorem payload_of_decodeCommand {w : CmdWord} {p : List Byte} {i : Instr} (h : decodeCommand w p = .ok i) :
    i.payload = p := by
  rw [decodeCommand] at h
  split_ifs at h
  all_goals
    cases h
    rfl

/-! ### What ABSORB can leave -/

theorem absorbBytes_cons_eq_ok {b : Byte} {rest : List Byte} {s t : State} :
    absorbBytes (b :: rest) s = .ok t ↔ ∃ u, absorbByte b s = .ok u ∧ absorbBytes rest u = .ok t := by
  rw [absorbBytes]
  cases absorbByte b s <;> simp

/-- What every byte step keeps, the byte loop keeps. -/
theorem absorbBytes_keeps {P : State → Prop}
    (hstep : ∀ {b : Byte} {s t : State}, P s → absorbByte b s = .ok t → P t) {data : List Byte} {s t : State}
    (h : P s) (ht : absorbBytes data s = .ok t) : P t := by
  induction data generalizing s with
  | nil =>
    cases ht
    exact h
  | cons b rest ih =>
    obtain ⟨u, hu, ht⟩ := absorbBytes_cons_eq_ok.mp ht
    exact ih (hstep h hu) ht

theorem absorbByte_sameControl {b : Byte} {s t : State} (ht : absorbByte b s = .ok t) : s.SameControl t := by
  rcases absorbByte_cases ht with ⟨_, rfl⟩ | ⟨_, _, rfl⟩
  all_goals
    constructor
    all_goals simp

theorem absorbBytes_sameControl {data : List Byte} {s t : State} (ht : absorbBytes data s = .ok t) :
    s.SameControl t :=
  absorbBytes_keeps (P := s.SameControl) (fun h hb => h.trans (absorbByte_sameControl hb)) (.refl s) ht

theorem performAbsorb_eq_ok {data : List Byte} {s t : State} :
    performAbsorb data s = .ok t ↔ ∃ u, absorbBytes data s = .ok u ∧ t = u.respond .ok [] := by
  rw [performAbsorb]
  cases absorbBytes data s <;> simp [eq_comm]

/-! ### What INIT leaves -/

/-- The session INIT opens (R100): with a key, the key block is pending (R104). -/
def State.opened (s : State) (o k : BitVec 7) (key : List Byte) : State :=
  if k = 0 then s.beginSession o k
  else ((s.beginSession o k).setBuf (s.buf.writeList 0 (keyBlock key))).setCursor 128

theorem performInit_opened {s : State} {o k : BitVec 7} {key : List Byte} (hl : key.length = k.toNat)
    (hk : k.toNat ≤ 64) :
    performInit o k key s = .ok (((s.opened o k key).setPhase .active).respond .ok []) :=
  performInit_of_le (by omega)

theorem performInit_eq_ok {s t : State} {o k : BitVec 7} {key : List Byte} (hl : key.length = k.toNat)
    (hk : k.toNat ≤ 64) (ht : performInit o k key s = .ok t) :
    t = ((s.opened o k key).setPhase .active).respond .ok [] := by
  rw [performInit_opened hl hk] at ht
  cases ht
  rfl

theorem opened_unkeyed (s : State) (o : BitVec 7) (key : List Byte) :
    s.opened o 0 key = s.beginSession o 0 := rfl

theorem opened_keyed (s : State) (o : BitVec 7) {k : BitVec 7} (hk : k ≠ 0) (key : List Byte) :
    s.opened o k key = ((s.beginSession o k).setBuf (s.buf.writeList 0 (keyBlock key))).setCursor 128 :=
  if_neg hk

@[simp] theorem State.opened_outlen (s : State) (o k : BitVec 7) (key : List Byte) :
    (s.opened o k key).outlen = o := by
  rw [State.opened]
  split
  all_goals rfl

@[simp] theorem State.opened_responses (s : State) (o k : BitVec 7) (key : List Byte) :
    (s.opened o k key).responses = s.responses := by
  rw [State.opened]
  split
  all_goals rfl

/-! ### What FINALIZE leaves -/

/-- The session with the pending bytes counted and the final block padded (R181, R182). -/
def State.padded (s : State) : State :=
  (s.counterAdd (cursorWord s.cursor)).setBuf (s.buf.writeList s.cursor.toNat (zeroFill s.cursor))

/-- The padded session with its final block compressed (R183). -/
def State.finalized (s : State) : State :=
  s.padded.setHash (compress s.h (messageWords (s.padded.buf.bytes 0 128)) s.padded.tLo s.padded.tHi true)

/-- Before its answer FINALIZE writes `h`, the counter and the buffer only. -/
theorem State.finalized_sameControl (s : State) : s.SameControl s.finalized := ⟨rfl, rfl, rfl, rfl, rfl⟩

/-- Padding never stops: past the buffer's end there is nothing to write (log 7). -/
theorem padFinalBlock_padded (s : State) : padFinalBlock s = .ok s.padded := by
  by_cases h : s.cursor.toNat ≤ 128
  · exact padFinalBlock_of_le h
  · have hz : zeroFill s.cursor = [] := List.length_eq_zero_iff.mp (by rw [zeroFill_length]; omega)
    rw [padFinalBlock, State.padded, hz]
    rfl

/-- What FINALIZE leaves when it answers. -/
theorem performFinalize_eq_ok {s t : State} (ht : performFinalize s = .ok t) :
    t = (s.finalized.setPhase .terminal).respond .ok (digest s.finalized) := by
  simp only [performFinalize, padFinalBlock_padded] at ht
  split at ht
  · cases ht
  · rename_i u hu
    obtain ⟨rfl, -⟩ := compressBuf_eq_ok hu
    cases ht
    rfl

end Sys2Proof.Machine
end

section
/-! ## Scope: the invariant

The reset state meets it, every step keeps it, and no state that meets it makes a step stop. -/

namespace Sys2Proof.Machine

/-! ### Buffer indices -/

theorem Memory.write_bound {m : Memory} {n a : Nat} (h : ∀ c ∈ m, c.1 < n) (ha : a < n) (b : Byte) :
    ∀ c ∈ m.write a b, c.1 < n := by
  intro c hc
  rcases Memory.mem_write hc with rfl | hc
  · exact ha
  · exact h c hc

theorem Memory.writeList_bound {m : Memory} {n a : Nat} {l : List Byte} (h : ∀ c ∈ m, c.1 < n)
    (hl : a + l.length ≤ n) : ∀ c ∈ m.writeList a l, c.1 < n := by
  intro c hc
  rcases Memory.mem_writeList hc with hr | hc
  · omega
  · exact h c hc

/-! ### The invariant through the state operations -/

/-- The invariant is about the registers, not the channels. -/
theorem State.Inv.of_registers_eq {s t : State} (h : s.Inv) (e : t.registers = s.registers) : t.Inv := by
  have hs : s.registers.Inv :=
    ⟨h.bufWf, h.bufBound, h.cursorLe, h.written, h.wholeBlocks, h.outlenLegal, h.noFault, h.faultCode⟩
  have ht : t.registers.Inv := e ▸ hs
  exact ⟨ht.bufWf, ht.bufBound, ht.cursorLe, ht.written, ht.wholeBlocks, ht.outlenLegal, ht.noFault,
    ht.faultCode⟩

theorem State.Inv.setInputs {s : State} (h : s.Inv) (l : List Input) : (s.setInputs l).Inv :=
  h.of_registers_eq rfl

theorem State.Inv.respond {s : State} (h : s.Inv) (st : Status) (data : List Byte) : (s.respond st data).Inv :=
  h.of_registers_eq rfl

/-- Fault entry keeps the buffer and the cursor, and the three faults have the codes 2, 3 and 4 (R200). -/
theorem State.Inv.raise {s : State} (h : s.Inv) (e : Trap) : (raise e s).Inv where
  bufWf := h.bufWf
  bufBound := h.bufBound
  cursorLe := h.cursorLe
  written := nofun
  wholeBlocks := nofun
  outlenLegal := nofun
  noFault hp := absurd rfl hp
  faultCode _ := by
    rw [raise_fault]
    cases e <;> decide

/-- Settles O43: nothing is written after reset and no session is open. -/
theorem resetMeetsInvariant : Obligations.ResetMeetsInvariant where
  bufWf := List.Pairwise.nil
  bufBound := nofun
  cursorLe := Nat.zero_le 128
  written := nofun
  wholeBlocks := nofun
  outlenLegal := nofun
  noFault _ := rfl
  faultCode := nofun

theorem takeReset_inv (s : State) : (takeReset s).Inv :=
  State.Inv.of_registers_eq resetMeetsInvariant rfl

/-! ### The invariant through the commands -/

theorem State.Inv.opened {s : State} (h : s.Inv) (hp : s.phase ≠ .faulted) {o k : BitVec 7} {key : List Byte}
    (hlegal : 1 ≤ o.toNat ∧ o.toNat ≤ 64) (hl : key.length ≤ 128) :
    ((s.opened o k key).setPhase .active).Inv := by
  by_cases hk : k = 0
  · subst hk
    rw [opened_unkeyed]
    exact
      { bufWf := h.bufWf
        bufBound := h.bufBound
        cursorLe := by simp
        written := by simp
        wholeBlocks := fun _ => by rw [State.setPhase_counter, beginSession_counter]; rfl
        outlenLegal := fun _ => hlegal
        noFault := fun _ => h.noFault hp
        faultCode := nofun }
  · have habs := keyedSession_hasAbsorbed s o k hl
    rw [opened_keyed s o hk]
    exact
      { bufWf := Memory.writeList_wf h.bufWf 0 _
        bufBound := Memory.writeList_bound h.bufBound (by rw [keyBlock_length hl])
        cursorLe := habs.cursor_le
        written := fun _ => habs.written
        wholeBlocks := fun _ => by
          rw [State.setPhase_counter, State.setCursor_counter, State.setBuf_counter, beginSession_counter]
          rfl
        outlenLegal := fun _ => hlegal
        noFault := fun _ => h.noFault hp
        faultCode := nofun }

/-- The registers of a session that meets the invariant are those of the bytes it holds back. -/
theorem State.Inv.hasAbsorbed {s : State} (h : s.Inv) (ha : s.phase = .active) :
    s.HasAbsorbed (s.h, s.counter) s.pending :=
  State.hasAbsorbed_pending h.cursorLe (h.written ha)

/-- The byte step writes below 128 and counts whole blocks. -/
theorem absorbByte_buffer {b : Byte} {s t : State} (h : s.Inv) (ha : s.phase = .active)
    (ht : absorbByte b s = .ok t) :
    t.buf.wf ∧ (∀ c ∈ t.buf, c.1 < 128) ∧ t.counter.toNat % 128 = 0 := by
  have hwhole := h.wholeBlocks ha
  rcases absorbByte_cases ht with ⟨hlt, rfl⟩ | ⟨_, _, rfl⟩
  · exact ⟨Memory.write_wf h.bufWf _ b, Memory.write_bound h.bufBound hlt b, hwhole⟩
  · refine ⟨Memory.write_wf h.bufWf 0 b, Memory.write_bound h.bufBound (by decide) b, ?_⟩
    have hcount : (s.counterAdd 128).counter = s.counter + 128 := counterAdd_counter s 128
    rw [State.setCursor_counter, State.setBuf_counter, State.setHash_counter, hcount, BitVec.toNat_add]
    show (s.counter.toNat + 128) % 2 ^ 128 % 128 = 0
    omega

theorem absorbByte_inv {b : Byte} {s t : State} (h : s.Inv) (ha : s.phase = .active)
    (ht : absorbByte b s = .ok t) : t.Inv := by
  obtain ⟨hwf, hbound, hwhole⟩ := absorbByte_buffer h ha ht
  obtain ⟨u, hu, habs, hsame⟩ := absorbByte_of_hasAbsorbed (h.hasAbsorbed ha) b
  obtain rfl : u = t := by simpa [hu] using ht
  exact
    { bufWf := hwf
      bufBound := hbound
      cursorLe := habs.cursor_le
      written := fun _ => habs.written
      wholeBlocks := fun _ => hwhole
      outlenLegal := by simpa only [hsame.phase, hsame.outlen] using h.outlenLegal
      noFault := by simpa only [hsame.phase, hsame.fault] using h.noFault
      faultCode := by simpa only [hsame.phase, hsame.fault] using h.faultCode }

theorem absorbBytes_inv {data : List Byte} {s t : State} (h : s.Inv) (ha : s.phase = .active)
    (ht : absorbBytes data s = .ok t) : t.Inv :=
  (absorbBytes_keeps (P := fun u => u.Inv ∧ u.phase = .active)
    (fun hu hb => ⟨absorbByte_inv hu.1 hu.2 hb, (absorbByte_sameControl hb).phase.trans hu.2⟩) ⟨h, ha⟩ ht).1

theorem State.Inv.finalized {s : State} (h : s.Inv) (ha : s.phase = .active) :
    (s.finalized.setPhase .terminal).Inv where
  bufWf := Memory.writeList_wf h.bufWf _ _
  bufBound := Memory.writeList_bound h.bufBound (by have := h.cursorLe; rw [zeroFill_length]; omega)
  cursorLe := h.cursorLe
  written := nofun
  wholeBlocks := nofun
  outlenLegal _ := h.outlenLegal (.inl ha)
  noFault _ := h.noFault (by simp [ha])
  faultCode := nofun

/-! ### Every step -/

theorem Decision.keeps_inv {s t : State} {d : Except DecodeError Instr}
    {f : State → Host.Outcome State Fault Refusal} (hf : Decision s.phase d f) (h : s.Inv)
    (ht : f s = .next t) : t.Inv := by
  cases hf with
  | sticky _ hp =>
    obtain ⟨st, _, rfl⟩ := answerFaulted_next ht
    exact h.respond st []
  | trap _ e hp =>
    cases ht
    exact h.raise e
  | reject _ hp =>
    cases ht
    exact h.respond _ []
  | init o k key hp hl hlegal =>
    obtain ⟨ho1, ho, hk⟩ := hlegal
    rw [performInit_eq_ok hl hk (finish_eq_next.mp ht)]
    exact (h.opened hp ⟨ho1, ho⟩ (by omega)).respond _ _
  | absorb n data hp hl =>
    obtain ⟨u, hu, rfl⟩ := performAbsorb_eq_ok.mp (finish_eq_next.mp ht)
    exact (absorbBytes_inv h hp hu).respond _ _
  | finalize hp =>
    rw [performFinalize_eq_ok (finish_eq_next.mp ht)]
    exact (h.finalized hp).respond _ _

/-- Settles O44: the deciding check's end keeps the invariant, and so does reset. -/
theorem stepKeepsInvariant : Obligations.StepKeepsInvariant := by
  intro s t h ht
  rcases step_decision s with ⟨_, hs⟩ | ⟨rest, _, hs⟩ | ⟨w, pl, rest, f, _, hf, hs⟩
  · rw [hs] at ht
    cases ht
    exact h
  · rw [hs] at ht
    cases ht
    exact takeReset_inv _
  · rw [hs s rfl rfl] at ht
    exact Decision.keeps_inv (s := s.setInputs rest) hf (h.setInputs rest) ht

/-- In FAULTED the register FAULT holds the code of a status. -/
theorem State.Inv.fault_eq_code {s : State} (h : s.Inv) (hp : s.phase = .faulted) :
    ∃ st : Status, s.fault = st.code := by
  rcases h.faultCode hp with hc | hc | hc
  · exact ⟨.illegalCommand, hc⟩
  · exact ⟨.sessionMisuse, hc⟩
  · exact ⟨.payloadMismatch, hc⟩

theorem Decision.answers {s : State} {d : Except DecodeError Instr}
    {f : State → Host.Outcome State Fault Refusal} (hf : Decision s.phase d f) (h : s.Inv) :
    ∃ t, f s = .next t := by
  cases hf with
  | sticky _ hp =>
    obtain ⟨st, hst⟩ := h.fault_eq_code hp
    exact ⟨_, answerFaulted_of_code hst⟩
  | trap _ e hp => exact ⟨_, rfl⟩
  | reject _ hp => exact ⟨_, rfl⟩
  | init o k key hp hl hlegal =>
    obtain ⟨_, _, hk⟩ := hlegal
    exact ⟨_, finish_eq_next.mpr (performInit_opened hl hk)⟩
  | absorb n data hp hl =>
    obtain ⟨t, ht, _⟩ := absorbBytes_of_hasAbsorbed (h.hasAbsorbed hp) data
    exact ⟨_, finish_eq_next.mpr (performAbsorb_eq_ok.mpr ⟨t, ht, rfl⟩)⟩
  | finalize hp => exact ⟨_, finish_eq_next.mpr (performFinalize_of_written h.cursorLe (h.written hp))⟩

/-- Settles O45: whichever check decides, it answers. -/
theorem stepNeverStops : Obligations.StepNeverStops := by
  intro s h
  rcases step_decision s with ⟨_, hs⟩ | ⟨rest, _, hs⟩ | ⟨w, pl, rest, f, _, hf, hs⟩
  · exact ⟨_, hs⟩
  · exact ⟨_, hs⟩
  · rw [hs s rfl rfl]
    exact Decision.answers (s := s.setInputs rest) hf (h.setInputs rest)

end Sys2Proof.Machine
end

section
/-! ## Scope: two runs that agree

Every operation takes states that agree on what can be observed to states that agree on it. -/

namespace Sys2Proof.Machine

variable {s u s' u' : State}

/-- Outside a session only PHASE, FAULT and the channels can be observed. -/
theorem State.Agree.of_not_active (hp : s.phase ≠ .active) (phase : s.phase = u.phase)
    (fault : s.fault = u.fault) (inputs : s.inputs = u.inputs) (responses : s.responses = u.responses) :
    s.Agree u :=
  ⟨phase, fault, inputs, responses, (absurd · hp), (absurd · hp), (absurd · hp), (absurd · hp), (absurd · hp),
    (absurd · hp)⟩

theorem State.Agree.setInputs (h : s.Agree u) (l : List Input) : (s.setInputs l).Agree (u.setInputs l) :=
  { h with inputs := rfl }

theorem State.Agree.respond (h : s.Agree u) (st : Status) (data : List Byte) :
    (s.respond st data).Agree (u.respond st data) :=
  { h with responses := by simp [h.responses] }

theorem State.Agree.raise (h : s.Agree u) (e : Trap) : (raise e s).Agree (raise e u) :=
  .of_not_active (by simp) rfl rfl h.inputs (by simp [h.responses])

theorem State.Agree.takeReset (h : s.Agree u) : (takeReset s).Agree (takeReset u) :=
  .of_not_active (by simp [State.reset]) rfl rfl h.inputs h.responses

theorem State.Agree.answerFaulted (h : s.Agree u) (hs : answerFaulted s = .next s')
    (hu : answerFaulted u = .next u') : s'.Agree u' := by
  obtain ⟨st, hst, rfl⟩ := answerFaulted_next hs
  rw [answerFaulted_of_code (h.fault.symm.trans hst)] at hu
  cases hu
  exact h.respond st []

/-- INIT writes everything that an open session observes: with no key no buffer byte is below the cursor, and
with one all 128 are the key block's. -/
theorem State.Agree.opened (h : s.Agree u) (o k : BitVec 7) {key : List Byte} (hl : key.length ≤ 128) :
    ((s.opened o k key).setPhase .active).Agree ((u.opened o k key).setPhase .active) := by
  by_cases hk : k = 0
  · subst hk
    rw [opened_unkeyed, opened_unkeyed]
    exact ⟨rfl, h.fault, h.inputs, h.responses, fun _ => rfl, fun _ => rfl, fun _ => rfl, fun _ => rfl,
      fun _ => rfl, by simp⟩
  · rw [opened_keyed s o hk, opened_keyed u o hk]
    refine ⟨rfl, h.fault, h.inputs, h.responses, fun _ => rfl, fun _ => rfl, fun _ => rfl, fun _ => rfl,
      fun _ => rfl, fun _ i hi => ?_⟩
    have hi' : i < 128 := hi
    have hin : 0 ≤ i ∧ i < 0 + (keyBlock key).length := by rw [keyBlock_length hl]; omega
    simp only [State.setPhase_buf, State.setCursor_buf, State.setBuf_buf, Memory.read_writeList, if_pos hin]

/-- Operations that keep PHASE, FAULT, OUTLEN and the channels go on agreeing if what they write agrees. -/
theorem State.Agree.of_sameControl (h : s.Agree u) (hs : s.SameControl s') (hu : u.SameControl u')
    (hash : s'.h = u'.h) (lo : s'.tLo = u'.tLo) (hi : s'.tHi = u'.tHi) (cursor : s'.cursor = u'.cursor)
    (bytes : ∀ i < s'.cursor.toNat, s'.buf.read i = u'.buf.read i) : s'.Agree u' where
  phase := hs.phase.trans (h.phase.trans hu.phase.symm)
  fault := hs.fault.trans (h.fault.trans hu.fault.symm)
  inputs := hs.inputs.trans (h.inputs.trans hu.inputs.symm)
  responses := hs.responses.trans (h.responses.trans hu.responses.symm)
  hash _ := hash
  counterLo _ := lo
  counterHi _ := hi
  cursor _ := cursor
  outlen ha := hs.outlen.trans ((h.outlen (hs.phase.symm.trans ha)).trans hu.outlen.symm)
  bytes _ := bytes

/-- The byte step on two sessions that agree: both have room, or both compress the same full block. -/
theorem State.Agree.absorbByte {b : Byte} (h : s.Agree u) (ha : s.phase = .active)
    (hs : absorbByte b s = .ok s') (hu : absorbByte b u = .ok u') : s'.Agree u' := by
  have hcur := h.cursor ha
  have hs₀ := absorbByte_sameControl hs
  have hu₀ := absorbByte_sameControl hu
  rcases absorbByte_cases hs with ⟨hlt, rfl⟩ | ⟨hfull, hw, rfl⟩
  · rw [absorbByte_of_lt (hcur ▸ hlt)] at hu
    cases hu
    refine h.of_sameControl hs₀ hu₀ (h.hash ha) (h.counterLo ha) (h.counterHi ha) (by simp [hcur]) fun i hi => ?_
    rw [State.setCursor_cursor, cursor_add_one_toNat hlt] at hi
    simp only [State.setCursor_buf, State.setBuf_buf, Memory.read_write, ← hcur]
    split
    · rfl
    · exact h.bytes ha i (by omega)
  · have h128 : s.cursor.toNat = 128 := by rw [hfull]; rfl
    have hbytes : ∀ j < 128, s.buf.read j = u.buf.read j := fun j hj => h.bytes ha j (by omega)
    have hblock : s.buf.bytes 0 128 = u.buf.bytes 0 128 := Memory.bytes_congr fun j _ hj => hbytes j (by omega)
    rw [absorbByte_of_full (hcur ▸ hfull) fun j hj => hbytes j hj ▸ hw j hj] at hu
    cases hu
    refine h.of_sameControl hs₀ hu₀ ?_ ?_ ?_ (by simp) fun i hi => ?_
    · simp [h.hash ha, h.counterLo ha, h.counterHi ha, hblock]
    · simp [h.counterLo ha]
    · simp [h.counterLo ha, h.counterHi ha]
    · obtain rfl : i = 0 := by simpa using hi
      simp

theorem State.Agree.absorbBytes {data : List Byte} (h : s.Agree u) (ha : s.phase = .active)
    (hs : absorbBytes data s = .ok s') (hu : absorbBytes data u = .ok u') : s'.Agree u' := by
  induction data generalizing s u with
  | nil =>
    cases hs
    cases hu
    exact h
  | cons b rest ih =>
    obtain ⟨s₁, hs₁, hs⟩ := absorbBytes_cons_eq_ok.mp hs
    obtain ⟨u₁, hu₁, hu⟩ := absorbBytes_cons_eq_ok.mp hu
    exact ih (h.absorbByte ha hs₁ hu₁) ((absorbByte_sameControl hs₁).phase.trans ha) hs hu

/-- Padding leaves the same final block: below the cursor the bytes agree, from it up they are zeros. -/
theorem State.Agree.padded_bytes (h : s.Agree u) (ha : s.phase = .active) :
    s.padded.buf.bytes 0 128 = u.padded.buf.bytes 0 128 := by
  refine Memory.bytes_congr fun j _ hj => ?_
  simp only [State.padded, State.setBuf_buf, Memory.read_writeList, zeroFill_length, ← h.cursor ha]
  split
  · rfl
  · exact h.bytes ha j (by omega)

theorem State.Agree.finalized_h (h : s.Agree u) (ha : s.phase = .active) : s.finalized.h = u.finalized.h := by
  simp only [State.finalized, State.setHash_h, h.padded_bytes ha, h.hash ha]
  simp only [State.padded, State.setBuf_tLo, State.setBuf_tHi, State.counterAdd_tLo, State.counterAdd_tHi,
    h.counterLo ha, h.counterHi ha, h.cursor ha]

theorem State.Agree.digest_finalized (h : s.Agree u) (ha : s.phase = .active) :
    digest s.finalized = digest u.finalized := by
  have hout : s.finalized.outlen = u.finalized.outlen := h.outlen ha
  rw [digest, digest, h.finalized_h ha, hout]

theorem State.Agree.finalized (h : s.Agree u) :
    (s.finalized.setPhase .terminal).Agree (u.finalized.setPhase .terminal) := by
  have hs := s.finalized_sameControl
  have hu := u.finalized_sameControl
  exact .of_not_active (by simp) rfl (hs.fault.trans (h.fault.trans hu.fault.symm))
    (hs.inputs.trans (h.inputs.trans hu.inputs.symm)) (hs.responses.trans (h.responses.trans hu.responses.symm))

theorem Decision.keeps_agree {d : Except DecodeError Instr} {f : State → Host.Outcome State Fault Refusal}
    (hf : Decision s.phase d f) (h : s.Agree u) (hs : f s = .next s') (hu : f u = .next u') : s'.Agree u' := by
  cases hf with
  | sticky _ hp => exact h.answerFaulted hs hu
  | trap _ e hp =>
    cases hs
    cases hu
    exact h.raise e
  | reject _ hp =>
    cases hs
    cases hu
    exact h.respond _ _
  | init o k key hp hl hlegal =>
    obtain ⟨_, _, hk⟩ := hlegal
    rw [performInit_eq_ok hl hk (finish_eq_next.mp hs), performInit_eq_ok hl hk (finish_eq_next.mp hu)]
    exact (h.opened o k (by omega)).respond _ _
  | absorb n data hp hl =>
    obtain ⟨s₁, hs₁, rfl⟩ := performAbsorb_eq_ok.mp (finish_eq_next.mp hs)
    obtain ⟨u₁, hu₁, rfl⟩ := performAbsorb_eq_ok.mp (finish_eq_next.mp hu)
    exact (h.absorbBytes hp hs₁ hu₁).respond _ _
  | finalize hp =>
    rw [performFinalize_eq_ok (finish_eq_next.mp hs), performFinalize_eq_ok (finish_eq_next.mp hu),
      h.digest_finalized hp]
    exact h.finalized.respond _ _

/-- Steps on states that agree are decided by the same check, and leave states that agree. -/
theorem step_keeps_agree (h : s.Agree u) (hs : step s = .next s') (hu : step u = .next u') : s'.Agree u' := by
  rcases step_decision s with ⟨hin, hs₁⟩ | ⟨rest, hin, hs₁⟩ | ⟨w, pl, rest, f, hin, hf, hrun⟩
  · rw [hs₁] at hs
    rw [step_idle (h.inputs.symm.trans hin)] at hu
    cases hs
    cases hu
    exact h
  · rw [hs₁] at hs
    rw [step_reset (h.inputs.symm.trans hin)] at hu
    cases hs
    cases hu
    exact (h.setInputs rest).takeReset
  · rw [hrun s rfl rfl] at hs
    rw [hrun u h.phase.symm h.inputs.symm] at hu
    exact Decision.keeps_agree (s := s.setInputs rest) hf (h.setInputs rest) hs hu

end Sys2Proof.Machine
end

section
/-! ## Scope: the registers between commands -/

namespace Sys2Proof.Machine

/-- Settles O46: both steps answer by the invariant, and agreeing states leave agreeing states. -/
theorem unspecifiedValuesAreNeverObserved : Obligations.UnspecifiedValuesAreNeverObserved := by
  intro s u hs hu h
  obtain ⟨s', hs'⟩ := stepNeverStops s hs
  obtain ⟨u', hu'⟩ := stepNeverStops u hu
  exact ⟨s', u', hs', hu', step_keeps_agree h hs' hu'⟩

/-! ### OUTLEN -/

/-- A command keeps OUTLEN, or is a legal INIT of the OUTLEN it leaves, answered OK. -/
theorem Decision.outlen_cases {s t : State} {d : Except DecodeError Instr}
    {f : State → Host.Outcome State Fault Refusal} (hf : Decision s.phase d f) (ht : f s = .next t) :
    t.outlen = s.outlen ∨
    ((∃ k key, d = .ok (.init t.outlen k key)) ∧ 1 ≤ t.outlen.toNat ∧ t.outlen.toNat ≤ 64 ∧ t.phase = .active ∧
      t.responses = s.responses ++ [⟨.ok, []⟩]) := by
  cases hf with
  | sticky _ hp =>
    obtain ⟨st, _, rfl⟩ := answerFaulted_next ht
    exact .inl rfl
  | trap _ e hp =>
    cases ht
    exact .inl rfl
  | reject _ hp =>
    cases ht
    exact .inl rfl
  | init o k key hp hl hlegal =>
    obtain ⟨ho1, ho, hk⟩ := hlegal
    obtain rfl := performInit_eq_ok hl hk (finish_eq_next.mp ht)
    have hout : (((s.opened o k key).setPhase .active).respond .ok []).outlen = o := s.opened_outlen o k key
    rw [hout]
    exact .inr ⟨⟨k, key, rfl⟩, ho1, ho, rfl, by simp⟩
  | absorb n data hp hl =>
    obtain ⟨u, hu, rfl⟩ := performAbsorb_eq_ok.mp (finish_eq_next.mp ht)
    exact .inl (absorbBytes_sameControl hu).outlen
  | finalize hp =>
    rw [performFinalize_eq_ok (finish_eq_next.mp ht)]
    exact .inl rfl

/-- Settles O19: of what a command can do, only a legal INIT's effect leaves another OUTLEN. -/
theorem outlenWrittenByInitOnly : Obligations.OutlenWrittenByInitOnly := by
  intro s t hreset ht hne
  rcases step_decision s with ⟨_, hs⟩ | ⟨rest, hin, _⟩ | ⟨w, pl, rest, f, hin, hf, hs⟩
  · rw [hs] at ht
    cases ht
    exact absurd rfl hne
  · exact absurd (by rw [hin]; rfl) hreset
  · rw [hs s rfl rfl] at ht
    rcases Decision.outlen_cases (s := s.setInputs rest) hf ht with hsame | ⟨⟨k, key, hd⟩, h⟩
    · exact absurd hsame hne
    · obtain rfl : key = pl := payload_of_decodeCommand hd
      exact ⟨w, key, rest, k, hin, hd, h⟩

/-! ### The model's stops -/

/-- A read of consecutive bytes stops at the first one not written. -/
theorem bufReadList_of_unwritten {s : State} {i n j : Nat} (hi : i ≤ j) (hj : j < i + n) (hn : i + n ≤ 128)
    (hr : s.buf.read j = none) : ∃ k ≤ j, bufReadList s i n = .error (.bufferUnwritten k) := by
  induction n generalizing i with
  | zero => omega
  | succ n ih =>
    cases hb : s.buf.read i with
    | none => exact ⟨i, hi, by rw [bufReadList, bufRead_of_none (by omega) hb]⟩
    | some b =>
      have hij : i ≠ j := by
        rintro rfl
        rw [hr] at hb
        cases hb
      obtain ⟨k, hk, hrest⟩ := ih (i := i + 1) (by omega) (by omega) (by omega)
      exact ⟨k, hk, by rw [bufReadList, bufRead_of_some (by omega) hb]; simp only [hrest]⟩

/-- Settles O42: COMPRESS parses all 128 bytes, so the parse meets the unwritten one. -/
theorem unwrittenByteStopsCompress : Obligations.UnwrittenByteStopsCompress := by
  intro s last j hj hr
  obtain ⟨k, hk, hread⟩ := bufReadList_of_unwritten (i := 0) (n := 128) (Nat.zero_le j) (by omega) (by omega) hr
  exact ⟨k, hk, by simp only [compressBuf, Config.blockBytes, hread]⟩

/-- The codes from 5 up stand for no status (R200). -/
theorem Status.ofCode_of_reserved {c : BitVec 4} (h : 5 ≤ c.toNat) : Status.ofCode c = none := by
  cases hc : Status.ofCode c with
  | none => rfl
  | some st =>
    rw [Status.ofCode_eq_some.mp hc] at h
    cases st <;> exact absurd h (by decide)

/-- Settles O16: the sticky answer finds no status for a reserved code. -/
theorem reservedFaultCodeIsRefused : Obligations.ReservedFaultCodeIsRefused := by
  intro s i hp hc
  rw [exec_of_faulted i hp, answerFaulted, Status.ofCode_of_reserved hc]

/-- Settles O31: the first payload byte already has no index to go to. -/
theorem cursorPastBufferFaults : Obligations.CursorPastBufferFaults := by
  intro s len data ha hl hne hc
  obtain ⟨b, rest, rfl⟩ := List.exists_cons_of_ne_nil hne
  rw [exec_absorb_of_active ha hl]
  simp only [performAbsorb, absorbBytes, absorbByte_of_gt hc, finish_error]

/-! ### Constants -/

/-- Settles O20, field by field of the reset state. -/
theorem resetLeaves : Obligations.ResetLeaves :=
  ⟨rfl, rfl, Memory.read_nil, by decide, by decide, rfl, rfl, rfl, rfl⟩

/-- Settles O39: a finite check of the table. -/
theorem sigmaRowsArePermutations : Obligations.SigmaRowsArePermutations :=
  ⟨by decide, rfl, rfl⟩

end Sys2Proof.Machine
end

section
/-! ## Scope: bytes and words in memory order

A command word and its four transport bytes, a message word and its eight block bytes, a hash word and its
eight digest bytes: in each the first byte is the least significant (20_memory.md R51, R52, R55). -/

namespace Sys2Proof.Machine

/-! ### Command words on a byte transport -/

/-- The four bytes of a word read back as the word (R55). -/
theorem wordOfBytes_extractLsb' (w : CmdWord) :
    wordOfBytes (w.extractLsb' 0 8) (w.extractLsb' 8 8) (w.extractLsb' 16 8) (w.extractLsb' 24 8) = w := by
  have hw := w.isLt
  apply BitVec.eq_of_toNat_eq
  simp only [wordOfBytes_toNat, BitVec.extractLsb'_toNat, Nat.shiftRight_eq_div_pow]
  omega

/-- Settles O6: the bytes are the word's own slices, and reading them back sums them by place value. -/
theorem commandWordBytesAreLittleEndian : Obligations.CommandWordBytesAreLittleEndian := by
  intro w
  have hread := wordOfBytes_extractLsb' w
  refine ⟨_, _, _, _, rfl, hread, ?_⟩
  rw [← wordOfBytes_toNat, hread]

/-- A word with its declared payload behind it is taken off the stream whole (log 13). -/
theorem decode_bytesOfWord_append {w : CmdWord} {p : List Byte} {i : Instr} (hi : decodeCommand w p = .ok i)
    (hp : p.length = declaredPayload w) (rest : List Byte) :
    decode (bytesOfWord w ++ p ++ rest) = .ok (i, rest) := by
  have henough : ¬ (p ++ rest).length < declaredPayload w := by
    rw [List.length_append]
    omega
  simp only [bytesOfWord, List.cons_append, List.nil_append, decode, wordOfBytes_extractLsb', if_neg henough,
    List.take_left' hp, List.drop_left' hp, hi]

/-- The word of a command declares the command's payload length, whatever the payload is (R76). -/
theorem declaredPayload_encodeWord (i : Instr) : declaredPayload (encodeWord i) = i.declaredLength := by
  have hempty : ∃ j : Instr, decodeCommand (encodeWord i) [] = .ok j ∧ j.declaredLength = i.declaredLength := by
    cases i with
    | init o k key => exact ⟨_, decodeCommand_encodeWord (.init o k []), rfl⟩
    | absorb n data => exact ⟨_, decodeCommand_encodeWord (.absorb n []), rfl⟩
    | finalize p => exact ⟨_, decodeCommand_encodeWord (.finalize []), rfl⟩
  obtain ⟨j, hj, hlen⟩ := hempty
  simp only [declaredPayload, hj, hlen]

/-- Settles O1: the word decodes to the command and declares exactly the payload that follows it. -/
theorem decodeOfEncode : Obligations.DecodeOfEncode := by
  intro i rest hwf
  have hlen : i.payload.length = i.declaredLength := by simpa [Instr.wellFormed] using hwf
  exact decode_bytesOfWord_append (decodeCommand_encodeWord i)
    (hlen.trans (declaredPayload_encodeWord i).symm) rest

/-! ### Message words -/

theorem messageWords_getElem (block : List Byte) (i : Fin 16) :
    (messageWords block)[i] = loadLE64 block (8 * i.val) := by
  fin_cases i <;> rfl

/-- Byte `j` of a little-endian load is the `j`-th byte from its offset (R11). -/
theorem extractLsb'_loadLE64 (bytes : List Byte) (off : Nat) (j : Fin 8) :
    (loadLE64 bytes off).extractLsb' (8 * j.val) 8 = bytes.getD (off + j.val) 0 := by
  rw [loadLE64_eq_append]
  fin_cases j <;>
    simp (disch := decide) only [BitVec.extractLsb'_append_eq_of_le, BitVec.extractLsb'_append_eq_right,
      BitVec.extractLsb'_eq_self, Nat.reduceMul, Nat.reduceSub]

/-- Settles O36: every byte the parse loads lies inside the block. -/
theorem messageWordsAreLittleEndian : Obligations.MessageWordsAreLittleEndian := by
  intro block i j hlen
  have hin : 8 * i.val + j.val < block.length := by omega
  rw [messageWords_getElem, extractLsb'_loadLE64, List.getD_eq_getElem?_getD, List.getElem?_eq_getElem hin,
    Option.getD_some]

/-! ### The digest -/

theorem storeLE64_eq_ofFn (w : Word) : storeLE64 w = List.ofFn fun j : Fin 8 => w.extractLsb' (8 * j.val) 8 := rfl

theorem serialize_eq_flatMap (h : Vector Word 8) :
    serialize h = (List.ofFn fun i : Fin 8 => h[i]).flatMap storeLE64 := rfl

@[simp] theorem serialize_length (h : Vector Word 8) : (serialize h).length = 64 := rfl

/-- In a row of stored words, byte `8 i + j` is byte `j` of word `i`. -/
theorem flatMap_storeLE64_getElem? (ws : List Word) (i : Nat) (j : Fin 8) :
    (ws.flatMap storeLE64)[8 * i + j.val]? = ws[i]?.map fun w => w.extractLsb' (8 * j.val) 8 := by
  induction ws generalizing i with
  | nil => rfl
  | cons w ws ih =>
    have hlen : (storeLE64 w).length = 8 := rfl
    rw [List.flatMap_cons]
    cases i with
    | zero =>
      rw [Nat.mul_zero, Nat.zero_add, List.getElem?_append_left (by omega), storeLE64_eq_ofFn,
        List.getElem?_ofFn, dif_pos j.isLt]
      rfl
    | succ i =>
      rw [List.getElem?_append_right (by omega), hlen, List.getElem?_cons_succ, ← ih]
      congr 1
      omega

/-- Byte `8 i + j` of the serialized chaining state (R52). -/
theorem serialize_getElem? (h : Vector Word 8) (i j : Fin 8) :
    (serialize h)[8 * i.val + j.val]? = some (h[i].extractLsb' (8 * j.val) 8) := by
  rw [serialize_eq_flatMap, flatMap_storeLE64_getElem?, List.getElem?_ofFn, dif_pos i.isLt]
  rfl

theorem digest_length {s : State} (h : s.outlen.toNat ≤ 64) : (digest s).length = s.outlen.toNat := by
  rw [digest, List.length_take, serialize_length, Nat.min_eq_left h]

/-- The digest's bytes are those of the serialized chaining state (R184). -/
theorem digest_getElem? {s : State} {n : Nat} (h : n < s.outlen.toNat) :
    (digest s)[n]? = (serialize s.h)[n]? := by
  rw [digest, List.getElem?_take_of_lt h]

/-- FINALIZE in a session that meets the invariant answers the digest of what it leaves. -/
theorem State.Inv.exec_finalize {s : State} (h : s.Inv) (ha : s.phase = .active) :
    exec (.finalize []) s = .next ((s.finalized.setPhase .terminal).respond .ok (digest s.finalized)) := by
  obtain ⟨t, ht⟩ : ∃ t, performFinalize s = .ok t := ⟨_, performFinalize_of_written h.cursorLe (h.written ha)⟩
  rw [exec_finalize_of_active ha, ht, performFinalize_eq_ok ht, finish_ok]

/-- Settles O33: FINALIZE answers `digest`, and OUTLEN is at most the 64 bytes serialized. -/
theorem digestIsLittleEndian : Obligations.DigestIsLittleEndian := by
  intro s h ha
  obtain ⟨_, hout⟩ := h.outlenLegal (.inl ha)
  refine ⟨_, digest s.finalized, h.exec_finalize ha, rfl, digest_length hout, fun i j hij => ?_⟩
  exact (digest_getElem? (s := s.finalized) hij).trans (serialize_getElem? s.finalized.h i j)

end Sys2Proof.Machine
end

section
/-! ## Scope: the meaning of every command word

A word's fields as numbers decide what it decodes to (30_encoding.md R81); the masks of the opcode table single
out the same words (R80), and no two words mean the same command. -/

namespace Sys2Proof.Machine

/-! ### Decoding by numbers -/

theorem fieldOp_eq_iff {w : CmdWord} {op : BitVec 4} : fieldOp w = op ↔ w.toNat % 16 = op.toNat := by
  rw [← BitVec.toNat_inj, fieldOp_toNat]

theorem fieldInitReserved_eq_zero_iff {w : CmdWord} : fieldInitReserved w = 0 ↔ w.toNat / 262144 = 0 := by
  rw [← BitVec.toNat_inj, fieldInitReserved_toNat]
  rfl

theorem fieldLen_eq_zero_iff {w : CmdWord} : fieldLen w = 0 ↔ w.toNat / 16 = 0 := by
  rw [← BitVec.toNat_inj, fieldLen_toNat]
  rfl

/-- A field is the bit vector of its number. -/
theorem eq_ofNat_of_toNat_eq {m n : Nat} {x : BitVec m} (h : x.toNat = n) : x = BitVec.ofNat m n := by
  rw [← h, BitVec.ofNat_toNat, BitVec.setWidth_eq]

/-- Settles O4: each test and each field of the decoder is a quotient or remainder of the word's number. -/
theorem decodeByFields : Obligations.DecodeByFields := by
  intro w p
  have hop := eq_ofNat_of_toNat_eq (fieldOp_toNat w)
  have hout := eq_ofNat_of_toNat_eq (fieldOutlen_toNat w)
  have hkey := eq_ofNat_of_toNat_eq (fieldKeylen_toNat w)
  have hlen := eq_ofNat_of_toNat_eq (fieldLen_toNat w)
  simp only [decodeCommand, fieldOp_eq_iff, fieldInitReserved_eq_zero_iff, fieldLen_eq_zero_iff]
  rw [hop, hout, hkey, hlen]
  rfl

/-! ### Back to the word -/

/-- The word of a decoded command is the word it came from. -/
theorem encodeWord_of_decodeCommand {w : CmdWord} {p : List Byte} {i : Instr}
    (h : decodeCommand w p = .ok i) : encodeWord i = w := by
  have hw := w.isLt
  apply BitVec.eq_of_toNat_eq
  rw [decodeByFields] at h
  dsimp only at h
  split_ifs at h
  · cases h
    rw [encodeWord_init_toNat, BitVec.toNat_ofNat, BitVec.toNat_ofNat]
    omega
  · cases h
    rw [encodeWord_absorb_toNat, BitVec.toNat_ofNat]
    omega
  · cases h
    rw [encodeWord_finalize]
    show 3 = _
    omega

/-- Settles O2: fields and opcode together are all bits of a decoded word. -/
theorem decodedCommandReencodes : Obligations.DecodedCommandReencodes :=
  fun _ _ _ h => ⟨encodeWord_of_decodeCommand h, payload_of_decodeCommand h⟩

/-! ### The four meanings -/

section
variable {w : CmdWord} {p : List Byte}

theorem decodeCommand_init_iff :
    (∃ o k, decodeCommand w p = .ok (.init o k p)) ↔ w.toNat % 16 = 1 ∧ w.toNat / 262144 = 0 := by
  constructor
  · rintro ⟨o, k, h⟩
    have ho := o.isLt
    have hk := k.isLt
    rw [← encodeWord_of_decodeCommand h, encodeWord_init_toNat]
    omega
  · rintro ⟨hop, hres⟩
    exact ⟨_, _, (decodeByFields w p).trans ((if_pos hop).trans (if_pos hres))⟩

theorem decodeCommand_absorb_iff :
    (∃ n, decodeCommand w p = .ok (.absorb n p)) ↔ w.toNat % 16 = 2 := by
  constructor
  · rintro ⟨n, h⟩
    rw [← encodeWord_of_decodeCommand h, encodeWord_absorb_toNat]
    omega
  · intro hop
    exact ⟨_, (decodeByFields w p).trans ((if_neg (by omega)).trans (if_pos hop))⟩

theorem decodeCommand_finalize_iff : decodeCommand w p = .ok (.finalize p) ↔ w = 3#32 := by
  constructor
  · intro h
    exact (encodeWord_of_decodeCommand h).symm
  · rintro rfl
    rfl

/-- A word is refused exactly when it is no command's. -/
theorem decodeCommand_error_iff :
    (∃ e, decodeCommand w p = .error e) ↔
      ¬(w.toNat % 16 = 1 ∧ w.toNat / 262144 = 0) ∧ ¬ w.toNat % 16 = 2 ∧ w ≠ 3#32 := by
  rw [← decodeCommand_init_iff (p := p), ← decodeCommand_absorb_iff (p := p), ne_eq,
    ← decodeCommand_finalize_iff (p := p)]
  cases hd : decodeCommand w p with
  | error e => simp
  | ok i =>
    obtain rfl := payload_of_decodeCommand hd
    cases i <;> simp [Instr.payload]

end

/-! ### Masks -/

/-- Bits laid above others count for their place value. -/
theorem toNat_append_eq_add {m n : Nat} (x : BitVec m) (y : BitVec n) :
    (x ++ y).toNat = x.toNat * 2 ^ n + y.toNat := by
  rw [BitVec.toNat_append, ← Nat.shiftLeft_add_eq_or_of_lt y.isLt, Nat.shiftLeft_eq]

/-- A word from its highest field down: INIT's reserved bits, the two lengths together, OP. -/
theorem fields_append (w : CmdWord) : fieldInitReserved w ++ w.extractLsb' 4 14 ++ fieldOp w = w := by
  have hw := w.isLt
  apply BitVec.eq_of_toNat_eq
  rw [toNat_append_eq_add, toNat_append_eq_add, fieldInitReserved_toNat, fieldOp_toNat,
    BitVec.extractLsb'_toNat, Nat.shiftRight_eq_div_pow]
  omega

/-- INIT's mask keeps the reserved bits and OP. -/
theorem and_initMask_eq_one_iff {w : CmdWord} :
    w &&& 0xFFFC000F#32 = 0x00000001#32 ↔ w.toNat % 16 = 1 ∧ w.toNat / 262144 = 0 := by
  have hmask : 0xFFFC000F#32 = BitVec.allOnes 14 ++ 0#14 ++ BitVec.allOnes 4 := by decide
  have hand : w &&& 0xFFFC000F#32 = fieldInitReserved w ++ 0#14 ++ fieldOp w := by
    conv_lhs => rw [← fields_append w, hmask, BitVec.and_append, BitVec.and_append]
    rw [BitVec.and_allOnes, BitVec.and_allOnes, BitVec.and_zero]
  rw [hand, ← BitVec.toNat_inj, toNat_append_eq_add, toNat_append_eq_add, fieldInitReserved_toNat,
    fieldOp_toNat, BitVec.toNat_ofNat, BitVec.toNat_ofNat]
  omega

/-- The mask of the four low bits keeps OP. -/
theorem and_opMask_eq_two_iff {w : CmdWord} : w &&& 0x0000000F#32 = 0x00000002#32 ↔ w.toNat % 16 = 2 := by
  rw [← BitVec.toNat_inj, BitVec.toNat_and]
  show w.toNat &&& (2 ^ 4 - 1) = 2 ↔ _
  rw [Nat.and_two_pow_sub_one_eq_mod]

/-- Settles O3: mask and match say of the word's number what the decoder tests. -/
theorem everyWordHasOneMeaning : Obligations.EveryWordHasOneMeaning := by
  intro w p
  simp only [and_initMask_eq_one_iff, and_opMask_eq_two_iff, ne_eq]
  exact ⟨decodeCommand_init_iff.symm, decodeCommand_absorb_iff.symm, decodeCommand_finalize_iff.symm,
    decodeCommand_error_iff⟩

/-- Settles O5, word by word. -/
theorem exampleWordsDecode : Obligations.ExampleWordsDecode :=
  ⟨rfl, rfl, fun _ => rfl, rfl, rfl, rfl, rfl, rfl⟩

end Sys2Proof.Machine
end

section
/-! ## Scope: textual commands, and the session HASH stands for

A line of text stands for the command's own word (30_encoding.md R83), a long ABSORB for pieces that are the data
in order (R84), so HASH is a session of the machine. -/

namespace Sys2Proof.Machine

/-- A field laid above the low bits of a word adds its place value. -/
theorem or_shiftLeft_toNat {low : CmdWord} {n i : Nat} (hlow : low.toNat < 2 ^ i) (hn : n * 2 ^ i < 2 ^ 32) :
    (low ||| (BitVec.ofNat 32 n <<< i)).toNat = low.toNat + n * 2 ^ i := by
  have hn' : n < 2 ^ 32 := (Nat.le_mul_of_pos_right n (Nat.two_pow_pos i)).trans_lt hn
  rw [BitVec.toNat_or, BitVec.toNat_shiftLeft, BitVec.toNat_ofNat, Nat.mod_eq_of_lt hn', Nat.shiftLeft_eq,
    Nat.mod_eq_of_lt hn, ← Nat.shiftLeft_eq, Nat.or_comm, ← Nat.shiftLeft_add_eq_or_of_lt hlow,
    Nat.add_comm]

theorem asmInit_eq_initInput {o : Nat} {key : List Byte} (ho : o < 128) (hk : key.length < 128) :
    asmInit o key = initInput (BitVec.ofNat 7 o) (BitVec.ofNat 7 key.length) key := by
  have hlow : ((1 : CmdWord) ||| (BitVec.ofNat 32 o <<< 4)).toNat = 1 + o * 2 ^ 4 :=
    or_shiftLeft_toNat (by decide) (by omega)
  have hword : asmInit o key =
      .command ((1 : CmdWord) ||| (BitVec.ofNat 32 o <<< 4) ||| (BitVec.ofNat 32 key.length <<< 11)) key := rfl
  rw [hword, initInput]
  congr 1
  apply BitVec.eq_of_toNat_eq
  rw [or_shiftLeft_toNat (by omega) (by omega), hlow, encodeWord_init_toNat, BitVec.toNat_ofNat,
    BitVec.toNat_ofNat]
  omega

theorem asmAbsorbOne_eq_absorbInput {data : List Byte} (h : data.length ≤ 268435455) :
    asmAbsorbOne data = absorbInput data := by
  rw [asmAbsorbOne, absorbInput]
  congr 1
  apply BitVec.eq_of_toNat_eq
  rw [or_shiftLeft_toNat (by decide) (by omega), encodeWord_absorb_toNat, BitVec.toNat_ofNat]
  show 2 + data.length * 2 ^ 4 = _
  omega

/-- Data that one ABSORB can carry is one ABSORB. -/
theorem asmAbsorb_of_le {data : List Byte} (h : data.length ≤ 268435455) :
    asmAbsorb data = [absorbInput data] := by
  rw [asmAbsorb, asmAbsorbUpTo, if_pos (show data.length ≤ maxAbsorb from h), asmAbsorbOne_eq_absorbInput h]

/-- With room for enough pieces, the pieces are the data in order, each within an ABSORB's reach. -/
theorem asmAbsorbUpTo_pieces {n : Nat} {data : List Byte} (h : data.length < n) :
    ∃ ds : List (List Byte), asmAbsorbUpTo n data = ds.map absorbInput ∧ ds.flatten = data ∧
      ∀ d ∈ ds, d.length ≤ 268435455 := by
  induction n generalizing data with
  | zero => omega
  | succ n ih =>
    rw [asmAbsorbUpTo]
    split
    · rename_i hle
      refine ⟨[data], ?_, List.flatten_singleton, List.forall_mem_singleton.mpr hle⟩
      rw [asmAbsorbOne_eq_absorbInput hle, List.map_singleton]
    · rename_i hgt
      have hfewer : (data.drop maxAbsorb).length < n := by
        rw [List.length_drop]
        simp only [maxAbsorb] at hgt ⊢
        omega
      have hhead : (data.take maxAbsorb).length ≤ 268435455 := List.length_take_le _ _
      obtain ⟨ds, hds, hflat, hlen⟩ := ih hfewer
      refine ⟨data.take maxAbsorb :: ds, ?_, ?_, List.forall_mem_cons.mpr ⟨hhead, hlen⟩⟩
      · rw [asmAbsorbOne_eq_absorbInput hhead, hds, List.map_cons]
      · rw [List.flatten_cons, hflat, List.take_append_drop]

theorem asmAbsorb_pieces (data : List Byte) :
    ∃ ds : List (List Byte), asmAbsorb data = ds.map absorbInput ∧ ds.flatten = data ∧
      ∀ d ∈ ds, d.length ≤ 268435455 :=
  asmAbsorbUpTo_pieces (Nat.lt_succ_self _)

/-- Settles O7, from the word of each command and the pieces of a long ABSORB. -/
theorem assemblerExpands : Obligations.AssemblerExpands :=
  ⟨fun _ _ => asmInit_eq_initInput, fun _ => asmAbsorb_of_le, asmAbsorb_pieces, rfl⟩

/-- Settles O48: the expansion is a session whose payloads are the data in order. -/
theorem hashPseudoCommandHashes : Obligations.HashPseudoCommandHashes := by
  intro s o key data hp ho1 ho hk
  obtain ⟨ds, hds, rfl, hlen⟩ := asmAbsorb_pieces data
  have hinputs : asmHash o key ds.flatten = initInput (BitVec.ofNat 7 o) (BitVec.ofNat 7 key.length) key ::
      ds.map absorbInput ++ [finalizeInput] := by
    rw [asmHash, asmInit_eq_initInput (by omega) (by omega), hds]
    rfl
  have hko : (BitVec.ofNat 7 o).toNat = o := Nat.mod_eq_of_lt (by omega)
  have hkl : (BitVec.ofNat 7 key.length).toNat = key.length := Nat.mod_eq_of_lt (by omega)
  obtain ⟨t, hrun, hterm, hin, hresp⟩ := sessionComputesBlake2b s (BitVec.ofNat 7 o) (BitVec.ofNat 7 key.length)
    key ds hp hkl.symm (by omega) (by omega) (by omega) fun d hd => by have := hlen d hd; omega
  refine ⟨t, ?_, hterm, hin, by rw [hresp, List.getLast?_concat]⟩
  rw [hinputs]
  simpa using hrun

end Sys2Proof.Machine
end

section
/-! ## Scope: one response per command -/

namespace Sys2Proof.Machine

/-- The sticky answer is a fault's, never OK (R29, R207). -/
theorem State.Inv.fault_ne_ok {s : State} (h : s.Inv) (hp : s.phase = .faulted) {st : Status}
    (hst : s.fault = st.code) : st ≠ .ok := by
  rintro rfl
  have := h.faultCode hp
  rw [hst] at this
  exact absurd this (by decide)

@[simp] theorem State.opened_inputs (s : State) (o k : BitVec 7) (key : List Byte) :
    (s.opened o k key).inputs = s.inputs := by
  rw [State.opened]
  split
  all_goals rfl

theorem Trap.status_ne_ok (e : Trap) : e.status ≠ .ok := by
  cases e <;> decide

/-- The check that decides a command gives one response and leaves the inputs alone; its data is empty, unless
a FINALIZE is answered OK. -/
theorem Decision.response_cases {s t : State} {d : Except DecodeError Instr}
    {f : State → Host.Outcome State Fault Refusal} (hf : Decision s.phase d f) (h : s.Inv)
    (ht : f s = .next t) :
    t.inputs = s.inputs ∧ ∃ r, t.responses = s.responses ++ [r] ∧
      ((r.data = [] ∧ (r.status = .ok → ∀ p, d ≠ .ok (.finalize p))) ∨
        (d = .ok (.finalize []) ∧ r = ⟨.ok, (serialize t.h).take s.outlen.toNat⟩)) := by
  cases hf with
  | sticky _ hp =>
    obtain ⟨st, hst, rfl⟩ := answerFaulted_next ht
    exact ⟨rfl, ⟨st, []⟩, rfl, .inl ⟨rfl, fun hok => absurd hok (h.fault_ne_ok hp hst)⟩⟩
  | trap _ e hp =>
    cases ht
    exact ⟨rfl, ⟨e.status, []⟩, rfl, .inl ⟨rfl, fun hok => absurd hok e.status_ne_ok⟩⟩
  | reject _ hp =>
    cases ht
    exact ⟨rfl, ⟨.invalidParameter, []⟩, rfl, .inl ⟨rfl, nofun⟩⟩
  | init o k key hp hl hlegal =>
    obtain ⟨_, _, hk⟩ := hlegal
    obtain rfl := performInit_eq_ok hl hk (finish_eq_next.mp ht)
    exact ⟨State.opened_inputs s o k key, ⟨.ok, []⟩, by simp, .inl ⟨rfl, nofun⟩⟩
  | absorb n data hp hl =>
    obtain ⟨u, hu, rfl⟩ := performAbsorb_eq_ok.mp (finish_eq_next.mp ht)
    have hsame := (absorbBytes_sameControl hu).respond .ok []
    exact ⟨hsame.inputs, ⟨.ok, []⟩, hsame.responses, .inl ⟨rfl, nofun⟩⟩
  | finalize hp =>
    rw [performFinalize_eq_ok (finish_eq_next.mp ht)]
    exact ⟨rfl, _, rfl, .inr ⟨rfl, rfl⟩⟩

/-- Settles O18: the invariant gives an answer, and the deciding check says what stands in it. -/
theorem oneResponsePerCommand : Obligations.OneResponsePerCommand := by
  intro s w p rest h hin
  obtain ⟨t, ht⟩ := stepNeverStops s h
  obtain ⟨f, hf, hrun⟩ := runDecoded_decision s.phase (decodeCommand w p)
  have hft : f (s.setInputs rest) = .next t :=
    (hrun (s.setInputs rest) rfl).symm.trans ((step_runDecoded hin).symm.trans ht)
  obtain ⟨hinputs, r, hresp, hdata⟩ := Decision.response_cases (s := s.setInputs rest) hf (h.setInputs rest) hft
  refine ⟨t, r, ht, hinputs, hresp, ?_⟩
  rcases hdata with ⟨hnil, hno⟩ | ⟨hd, rfl⟩
  · rw [hnil, if_neg]
    rintro ⟨hok, hw⟩
    exact hno hok p (decodeCommand_finalize_iff.mpr hw)
  · obtain rfl : [] = p := payload_of_decodeCommand hd
    rw [if_pos ⟨rfl, decodeCommand_finalize_iff.mp hd⟩]
    rfl

end Sys2Proof.Machine
end

section
/-! ## Scope: INIT

What INIT answers once the common checks have passed, the parameter word as a number, and the key block that stays
pending until the next command (40_initialize.md). -/

namespace Sys2Proof.Machine

/-! ### The answer -/

section
variable {s : State} {o k : BitVec 7} {key : List Byte}

/-- A legal INIT opens the session, answered OK (R100). -/
theorem exec_init_of_legal (hp : s.phase ≠ .faulted) (hl : key.length = k.toNat)
    (hlegal : 1 ≤ o.toNat ∧ o.toNat ≤ 64 ∧ k.toNat ≤ 64) :
    exec (.init o k key) s = .next (((s.opened o k key).setPhase .active).respond .ok []) := by
  have hok := legalParameters_iff.mpr hlegal
  obtain ⟨_, _, hk⟩ := hlegal
  rw [exec_init_of_pass hp hl, if_pos hok, performInit_opened hl hk, finish_ok]

/-- An illegal INIT is answered and writes nothing (R102). -/
theorem exec_init_of_illegal (hp : s.phase ≠ .faulted) (hl : key.length = k.toNat)
    (hillegal : ¬(1 ≤ o.toNat ∧ o.toNat ≤ 64 ∧ k.toNat ≤ 64)) :
    exec (.init o k key) s = .next (s.respond .invalidParameter []) := by
  rw [exec_init_of_pass hp hl, if_neg (mt legalParameters_iff.mp hillegal)]

end

/-! ### What a legal INIT leaves -/

@[simp] theorem State.opened_h (s : State) (o k : BitVec 7) (key : List Byte) :
    (s.opened o k key).h = initialHash o k := by
  rw [State.opened]
  split
  all_goals rfl

/-- The key block byte by byte: the key, then zeros. -/
theorem keyBlock_getElem? {key : List Byte} {i : Nat} (hi : i < 128) :
    (keyBlock key)[i]? = some (key.getD i 0) := by
  rw [keyBlock, Config.blockBytes]
  by_cases h : i < key.length
  · simp [List.getElem?_append_left h, h]
  · have hle : key.length ≤ i := Nat.le_of_not_lt h
    rw [List.getElem?_append_right hle, List.getElem?_replicate_of_lt (by omega), List.getD_eq_default _ _ hle]

/-- A buffer read after the key block was laid from index 0 up. -/
theorem read_writeList_keyBlock (m : Memory) {key : List Byte} (h : key.length ≤ 128) (i : Nat) :
    (m.writeList 0 (keyBlock key)).read i = if i < 128 then some (key.getD i 0) else m.read i := by
  rw [Memory.read_writeList, keyBlock_length h]
  by_cases hi : i < 128
  · rw [if_pos ⟨Nat.zero_le i, by omega⟩, if_pos hi, Nat.sub_zero, keyBlock_getElem? hi]
  · rw [if_neg (by omega), if_neg hi]

/-- Settles O22: with and without a key the session opened is the one written out, and the buffer is read index by
index. -/
theorem initEffect : Obligations.InitEffect := by
  intro s o k key hp hl
  refine ⟨fun hlegal => ⟨(s.opened o k key).buf, ?_, ?_, fun hk => ?_⟩, exec_init_of_illegal hp hl⟩
  · rw [exec_init_of_legal hp hl hlegal]
    by_cases hk : k = 0
    · subst hk
      rfl
    · rw [opened_keyed s o hk, if_neg hk]
      rfl
  · rintro rfl
    rfl
  · rw [opened_keyed s o hk]
    exact read_writeList_keyBlock s.buf (by omega)

/-! ### The parameter word -/

/-- Bits laid over zeros by XOR count for their place value. -/
theorem mul_two_pow_xor_eq_add {a b n : Nat} (h : b < 2 ^ n) : (a * 2 ^ n) ^^^ b = a * 2 ^ n + b := by
  have hlow : ((a * 2 ^ n) ^^^ b) % 2 ^ n = b := by
    rw [Nat.xor_mod_two_pow, Nat.mul_mod_left, Nat.zero_xor, Nat.mod_eq_of_lt h]
  have hhigh : ((a * 2 ^ n) ^^^ b) / 2 ^ n = a := by
    rw [Nat.xor_div_two_pow, Nat.mul_div_cancel _ (Nat.two_pow_pos n), Nat.div_eq_of_lt h, Nat.xor_zero]
  rw [← Nat.div_add_mod' ((a * 2 ^ n) ^^^ b) (2 ^ n), hlow, hhigh]

/-- The bytes of `P` from the lowest up: OUTLEN, KEYLEN, 1, 1 (R103). -/
theorem parameterWord_toNat (o k : BitVec 7) :
    (parameterWord o k).toNat = o.toNat + 256 * k.toNat + 65536 + 16777216 := by
  have ho := o.isLt
  have hk := k.isLt
  have hkeylen : (k.setWidth 64 <<< 8).toNat = k.toNat * 2 ^ 8 := by
    rw [BitVec.toNat_shiftLeft, BitVec.toNat_setWidth, Nat.shiftLeft_eq]
    omega
  have houtlen : (o.setWidth 64).toNat = o.toNat := by
    rw [BitVec.toNat_setWidth]
    omega
  calc (parameterWord o k).toNat
      = (0x0101 * 2 ^ 16) ^^^ ((k.toNat * 2 ^ 8) ^^^ o.toNat) := by
        rw [parameterWord, BitVec.toNat_xor, BitVec.toNat_xor, hkeylen, houtlen, Nat.xor_assoc]
        rfl
    _ = 0x0101 * 2 ^ 16 + (k.toNat * 2 ^ 8 + o.toNat) := by
        rw [mul_two_pow_xor_eq_add (by omega : o.toNat < 2 ^ 8), mul_two_pow_xor_eq_add (by omega)]
    _ = o.toNat + 256 * k.toNat + 65536 + 16777216 := by omega

/-- Settles O23: `P` as a number, and the one word of IV that the initial hash changes. -/
theorem parameterWordSeedsHash : Obligations.ParameterWordSeedsHash := by
  intro o k
  refine ⟨rfl, parameterWord_toNat o k, fun s key hp hl ho1 ho hk => ?_⟩
  refine ⟨_, exec_init_of_legal hp hl ⟨ho1, ho, hk⟩, ?_, fun i hi => ?_⟩
  · simp only [State.respond_h, State.setPhase_h, State.opened_h]
    exact Vector.getElem_set_self _
  · simp only [State.respond_h, State.setPhase_h, State.opened_h]
    exact Vector.getElem_set_ne _ i.isLt fun h0 => hi (Fin.ext h0.symm)

/-! ### The failing INIT -/

/-- Settles O24: the word decodes to an INIT with the fields out of range, and that INIT only answers. -/
theorem failingInitMutatesNothing : Obligations.FailingInitMutatesNothing := by
  intro s w p rest hin hp hop hres hl hbad
  have hd := (decodeByFields w p).trans ((if_pos hop).trans (if_pos hres))
  rw [step_command hin hd]
  refine exec_init_of_illegal (s := s.setInputs rest) hp ?_ ?_
  · rw [BitVec.toNat_ofNat]
    omega
  · rw [BitVec.toNat_ofNat, BitVec.toNat_ofNat]
    omega

/-! ### The deferred key block -/

section
variable {s : State} {start : Vector Word 8 × BitVec 128} {stream : List Byte}

/-- Of a stream of at most one block nothing has been compressed: all of it is held back (R124). -/
theorem State.HasAbsorbed.of_length_le (h : s.HasAbsorbed start stream) (hlen : stream.length ≤ 128) :
    s.h = start.1 ∧ s.counter = start.2 ∧ s.pending = stream := by
  obtain ⟨hcomp, hheld, -⟩ := h
  rw [fullBlocks_of_length_le hlen, compressBlocks_zero] at hcomp
  rw [fullBlocks_of_length_le hlen, Nat.mul_zero, List.drop_zero] at hheld
  exact ⟨congrArg Prod.fst hcomp, congrArg Prod.snd hcomp, hheld⟩

/-- A byte behind a whole block leaves the block compressed and itself held back (R121). -/
theorem State.HasAbsorbed.of_block_append {block : List Byte} {b : Byte}
    (h : s.HasAbsorbed start (block ++ [b])) (hlen : block.length = 128) :
    (s.h, s.counter) = compressNext start block ∧ s.pending = [b] := by
  obtain ⟨hcomp, hheld, -⟩ := h
  have hfull : fullBlocks (block ++ [b]) = 1 := by
    rw [fullBlocks, List.length_append, List.length_singleton, hlen]
  rw [hfull, compressBlocks_succ, compressBlocks_zero, List.take_left' hlen] at hcomp
  rw [hfull, Nat.mul_one, List.drop_left' hlen] at hheld
  exact ⟨hcomp, hheld⟩

/-- FINALIZE answers in every session that has taken in a stream. -/
theorem State.HasAbsorbed.exec_finalize (h : s.HasAbsorbed start stream) (ha : s.phase = .active) :
    exec (.finalize []) s = .next ((s.finalized.setPhase .terminal).respond .ok (digest s.finalized)) := by
  obtain ⟨t, ht⟩ : ∃ t, performFinalize s = .ok t := ⟨_, performFinalize_of_written h.cursor_le h.written⟩
  rw [exec_finalize_of_active ha, ht, performFinalize_eq_ok ht, finish_ok]

end

/-- FINALIZE on a full buffer counts 128 bytes and pads with none (R181, R182). -/
theorem finalized_of_full {s : State} (hc : s.cursor = 128) :
    s.finalized.h = compress s.h (messageWords s.pending) ((s.counter + 128).extractLsb' 0 64)
      ((s.counter + 128).extractLsb' 64 64) true ∧ s.finalized.counter = s.counter + 128 := by
  have hcount : s.padded.counter = s.counter + 128 := by
    rw [State.padded, hc]
    exact counterAdd_counter s 128
  have hbytes : s.padded.buf.bytes 0 128 = s.pending := by
    have hzero : zeroFill s.cursor = [] := by rw [hc]; rfl
    rw [State.padded, State.setBuf_buf, bytes_zeroFill s (by rw [hc]; decide), hzero, List.append_nil]
  refine ⟨?_, hcount⟩
  rw [State.finalized, State.setHash_h, hbytes, ← hcount, counter_low, counter_high]

/-- The counter after the first block, and the two words of it that COMPRESS takes. -/
theorem firstBlock_count : (0 : BitVec 128) + 128 = 128 := by decide

theorem firstBlock_low : ((0 : BitVec 128) + 128).extractLsb' 0 64 = 128 := by decide

theorem firstBlock_high : ((0 : BitVec 128) + 128).extractLsb' 64 64 = 0 := by decide

theorem compressNext_first (h : Vector Word 8) (block : List Byte) :
    compressNext (h, 0) block = (compress h (messageWords block) 128 0 false, 128) := by
  rw [compressNext, firstBlock_low, firstBlock_high, firstBlock_count]

/-- Settles O25: INIT leaves a session that has taken in the key block, a whole block still held back; a byte behind
it and a FINALIZE both compress it. -/
theorem keyBlockIsDeferred : Obligations.KeyBlockIsDeferred := by
  intro s o k key hp hl ho1 ho hk1 hk
  have hlen : (keyBlock key).length = 128 := keyBlock_length (by omega)
  have hstream : sessionStream key [] = keyBlock key := by
    have hkey : key ≠ [] := List.ne_nil_of_length_pos (by omega)
    rw [sessionStream, List.append_nil, if_neg hkey]
  obtain ⟨t, ht, habs, hphase, -⟩ := exec_init_hasAbsorbed hp hl ho1 ho hk
  rw [hstream] at habs
  obtain ⟨hh, hcounter, hpending⟩ := habs.of_length_le hlen.le
  have hcursor : t.cursor = 128 := by
    apply BitVec.eq_of_toNat_eq
    rw [← State.pending_length, hpending, hlen]
    rfl
  refine ⟨t, ht, hh, hcounter, hcursor, hpending, fun b => ?_, ?_⟩
  · obtain ⟨u, hu, habs', -⟩ := exec_absorb_of_hasAbsorbed (len := 1) (data := [b]) habs hphase rfl
    obtain ⟨hcomp, hheld⟩ := habs'.of_block_append hlen
    rw [compressNext_first] at hcomp
    obtain ⟨hcompressed, hcount⟩ := Prod.ext_iff.mp hcomp
    exact ⟨u, hu, hcompressed, hcount, hheld⟩
  · obtain ⟨hcompressed, hcount⟩ := finalized_of_full hcursor
    rw [hh, hpending, hcounter, firstBlock_low, firstBlock_high] at hcompressed
    rw [hcounter, firstBlock_count] at hcount
    exact ⟨_, habs.exec_finalize hphase, hcompressed, hcount⟩

end Sys2Proof.Machine
end

section
/-! ## Scope: ABSORB

The counter add and the byte step as the spec writes them, the blocks a payload completes, what ABSORB leaves alone,
and why the cuts between ABSORBs leave no trace (41_absorb.md). -/

namespace Sys2Proof.Machine

/-! ### The counter add -/

/-- Settles O29: the carry into the high word is that of the sum of the low words, so the two words add as one
number. -/
theorem counterAddIs128Bit : Obligations.CounterAddIs128Bit := by
  intro s n _
  exact ⟨counterAdd_counter s n, by rw [State.counterAdd, addCarry_eq]⟩

/-- The counter add of a whole block. -/
theorem counterAdd_block (s : State) : (s.counterAdd 128).counter = s.counter + 128 := counterAdd_counter s 128

/-! ### The byte step -/

/-- A full buffer is pending as a whole. -/
theorem bytes_eq_pending {s : State} (h : s.cursor = 128) : s.buf.bytes 0 128 = s.pending := by
  rw [State.pending_eq_bytes, h]
  rfl

/-- The byte loop is a fold of the byte step over the payload, in payload order (R120). -/
theorem absorbBytes_eq_foldlM (data : List Byte) (s : State) :
    absorbBytes data s = data.foldlM (fun u b => absorbByte b u) s := by
  induction data generalizing s with
  | nil => rfl
  | cons b rest ih =>
    rw [absorbBytes, List.foldlM_cons]
    cases absorbByte b s with
    | error f => rfl
    | ok u => exact ih u

/-- Settles O26: the byte step below a full buffer and on one, its fold over a payload, and the phase check. -/
theorem byteStep : Obligations.ByteStep := by
  refine ⟨fun s b hlt => absorbByte_of_lt hlt, fun s b hc hw => ?_, fun s n data ha hl => ?_,
    fun s n data hp hl => ?_⟩
  · rw [absorbByte_of_full hc hw, bytes_eq_pending hc]
    simp only [← counterAdd_block, counter_low, counter_high]
    rfl
  · rw [exec_absorb_of_active ha hl, performAbsorb, absorbBytes_eq_foldlM]
    cases data.foldlM (fun u b => absorbByte b u) s with
    | error f => rfl
    | ok t => rfl
  · rcases hp with hp | hp
    all_goals exact exec_absorb_of_misuse (by simp [hp]) (by simp [hp]) hl

/-! ### The blocks a payload completes -/

/-- Every compression of a run counts its 128 bytes (R121). -/
theorem compressBlocks_counter (k : Nat) (ht : Vector Word 8 × BitVec 128) (bytes : List Byte) :
    (compressBlocks k ht bytes).2 = ht.2 + BitVec.ofNat 128 (128 * k) := by
  induction k generalizing ht bytes with
  | zero => simp
  | succ k ih =>
    have hnext : (compressNext ht (bytes.take 128)).2 = ht.2 + 128 := rfl
    rw [compressBlocks_succ, ih, hnext, Nat.mul_succ, Nat.add_comm, BitVec.ofNat_add, BitVec.add_assoc]
    rfl

/-- The counter of a session counts the blocks it has compressed. -/
theorem State.HasAbsorbed.counter_eq {s : State} {start : Vector Word 8 × BitVec 128} {stream : List Byte}
    (h : s.HasAbsorbed start stream) : s.counter = start.2 + BitVec.ofNat 128 (128 * fullBlocks stream) :=
  (congrArg Prod.snd h.compressed).trans (compressBlocks_counter _ _ _)

/-- ABSORB of no bytes only answers. -/
theorem exec_absorb_nil {s : State} {len : BitVec 28} (ha : s.phase = .active)
    (hl : ([] : List Byte).length = len.toNat) : exec (.absorb len []) s = .next (s.respond .ok []) := by
  rw [exec_absorb_of_active ha hl]
  rfl

/-- Settles O27: a session that meets the invariant has taken in its pending bytes, ABSORB takes in the payload
behind them, and the stream says which blocks that compresses. -/
theorem absorbCompressesFullBlocks : Obligations.AbsorbCompressesFullBlocks := by
  intro s len data hinv ha hl c n k
  obtain ⟨t, ht, habs, hsame⟩ := exec_absorb_of_hasAbsorbed (hinv.hasAbsorbed ha) ha hl
  have hlen : (s.pending ++ data).length = c + n := by rw [List.length_append, State.pending_length]
  have hk : fullBlocks (s.pending ++ data) = k := by rw [fullBlocks, hlen]
  have hcounter := habs.counter_eq
  have hcursor := habs.cursor_eq
  obtain ⟨hcomp, hheld, -⟩ := habs
  rw [hk] at hcomp hheld hcounter hcursor
  refine ⟨t, ht, hcomp, hcounter, hheld, fun hn => ?_, fun hn => ?_, hsame.phase.trans ha, hsame.fault,
    hsame.outlen, hsame.inputs, hsame.responses⟩
  · rw [hcursor, hlen]
    omega
  · obtain rfl : data = [] := List.length_eq_zero_iff.mp hn
    rw [exec_absorb_nil ha hl] at ht
    cases ht
    rfl

/-! ### The frame of ABSORB -/

section
variable {s t : State}

/-- The byte step writes one buffer byte, at the cursor taken around the buffer's end, and leaves the cursor
behind it. -/
theorem absorbByte_writes {b : Byte} (ht : absorbByte b s = .ok t) :
    t.buf = s.buf.write (s.cursor.toNat % 128) b ∧ t.cursor.toNat = s.cursor.toNat % 128 + 1 := by
  rcases absorbByte_cases ht with ⟨hlt, rfl⟩ | ⟨hfull, _, rfl⟩
  · rw [Nat.mod_eq_of_lt hlt]
    exact ⟨rfl, cursor_add_one_toNat hlt⟩
  · rw [hfull]
    exact ⟨rfl, rfl⟩

/-- A buffer byte that no payload byte lands on reads as before. -/
theorem absorbBytes_read_other {data : List Byte} (ht : absorbBytes data s = .ok t) {a : Nat}
    (ha : ∀ j < data.length, a ≠ (s.cursor.toNat + j) % 128) : t.buf.read a = s.buf.read a := by
  induction data generalizing s with
  | nil =>
    cases ht
    rfl
  | cons b rest ih =>
    obtain ⟨u, hu, ht⟩ := absorbBytes_cons_eq_ok.mp ht
    obtain ⟨hbuf, hcursor⟩ := absorbByte_writes hu
    have hhead : a ≠ s.cursor.toNat % 128 := ha 0 (Nat.zero_lt_succ _)
    have hrest : ∀ j < rest.length, a ≠ (u.cursor.toNat + j) % 128 := fun j hj => by
      have := ha (j + 1) (Nat.succ_lt_succ hj)
      omega
    rw [ih ht hrest, hbuf, Memory.read_write_other _ _ hhead]

/-- A payload that fits is written at the cursor and compresses nothing. -/
theorem absorbBytes_of_fit {data : List Byte} (h : s.cursor.toNat + data.length ≤ 128) :
    absorbBytes data s = .ok ((s.setBuf (s.buf.writeList s.cursor.toNat data)).setCursor
      (s.cursor + BitVec.ofNat 8 data.length)) := by
  induction data generalizing s with
  | nil =>
    rw [List.length_nil, BitVec.add_zero]
    rfl
  | cons b rest ih =>
    rw [List.length_cons] at h
    have hlt : s.cursor.toNat < 128 := by omega
    have hcursor := cursor_add_one_toNat hlt
    rw [absorbBytes, absorbByte_of_lt hlt]
    refine (ih (by rw [State.setCursor_cursor, hcursor]; omega)).trans ?_
    rw [State.setCursor_cursor, hcursor, List.length_cons, Nat.add_comm rest.length, BitVec.ofNat_add,
      ← BitVec.add_assoc]
    rfl

/-- What an ABSORB that answers did: its byte loop, then the response. -/
theorem exec_absorb_eq_next {len : BitVec 28} {data : List Byte} (ha : s.phase = .active)
    (hl : data.length = len.toNat) :
    exec (.absorb len data) s = .next t ↔ ∃ u, absorbBytes data s = .ok u ∧ t = u.respond .ok [] := by
  rw [exec_absorb_of_active ha hl, finish_eq_next, performAbsorb_eq_ok]

end

/-- Settles O30: byte by byte for the buffer, and by the closed form of a payload that fits for `h` and `t`. -/
theorem absorbFrame : Obligations.AbsorbFrame := by
  intro s t len data ha hl ht
  obtain ⟨u, hu, rfl⟩ := (exec_absorb_eq_next ha hl).mp ht
  have hsame := (absorbBytes_sameControl hu).respond .ok []
  refine ⟨hsame.phase.trans ha, hsame.fault, hsame.outlen, hsame.inputs, hsame.responses,
    fun a => absorbBytes_read_other hu, fun hfit => ?_⟩
  rw [absorbBytes_of_fit hfit] at hu
  cases hu
  exact ⟨rfl, rfl, rfl⟩

/-! ### The cuts between ABSORBs -/

section
variable {s t : State}

/-- The byte step does not look at the channels. -/
theorem absorbByte_registers {b : Byte} (ht : absorbByte b s = .ok t) :
    absorbByte b s.registers = .ok t.registers := by
  rcases absorbByte_cases ht with ⟨hlt, rfl⟩ | ⟨hfull, hw, rfl⟩
  · exact absorbByte_of_lt (s := s.registers) hlt
  · exact absorbByte_of_full (s := s.registers) hfull hw

/-- The byte loop does not look at the channels. -/
theorem absorbBytes_registers {data : List Byte} (ht : absorbBytes data s = .ok t) :
    absorbBytes data s.registers = .ok t.registers := by
  induction data generalizing s with
  | nil =>
    cases ht
    rfl
  | cons b rest ih =>
    obtain ⟨u, hu, ht⟩ := absorbBytes_cons_eq_ok.mp ht
    exact absorbBytes_cons_eq_ok.mpr ⟨u.registers, absorbByte_registers hu, ih ht⟩

/-- A run that answers is a step that answers and a run from there. -/
theorem run_succ_eq_next {k : Nat} :
    Sys2Proof.core.run (k + 1) s = .next t ↔ ∃ u, step s = .next u ∧ Sys2Proof.core.run k u = .next t := by
  constructor
  · intro h
    simp only [Host.Core.run] at h
    split at h
    · rename_i u hu
      exact ⟨u, hu, h⟩
    · cases h
    · cases h
  · rintro ⟨u, hu, h⟩
    rw [run_succ k hu, h]

/-- An ABSORB presented in an ACTIVE session answers by its byte loop. -/
theorem step_absorbInput_eq_next {data : List Byte} {rest : List Input} (ha : s.phase = .active)
    (hin : s.inputs = absorbInput data :: rest) (hlen : data.length < 268435456) :
    step s = .next t ↔ ∃ u, absorbBytes data (s.setInputs rest) = .ok u ∧ t = u.respond .ok [] := by
  rw [step_absorbInput hin]
  exact exec_absorb_eq_next ha (by rw [BitVec.toNat_ofNat, Nat.mod_eq_of_lt hlen])

/-- ABSORBs one after another leave the registers that one byte loop over all their payloads leaves: the byte step
does not know where a payload ends (R125). -/
theorem run_absorbs_registers {ds : List (List Byte)} (ha : s.phase = .active)
    (hin : s.inputs = ds.map absorbInput) (hds : ∀ d ∈ ds, d.length < 268435456)
    (ht : Sys2Proof.core.run ds.length s = .next t) : absorbBytes ds.flatten s.registers = .ok t.registers := by
  induction ds generalizing s with
  | nil =>
    cases ht
    rfl
  | cons d ds ih =>
    obtain ⟨v, hv, ht⟩ := run_succ_eq_next.mp ht
    obtain ⟨u, hu, rfl⟩ := (step_absorbInput_eq_next ha hin (hds d List.mem_cons_self)).mp hv
    have hsame := absorbBytes_sameControl hu
    have hrest := ih (s := u.respond .ok []) (hsame.phase.trans ha) hsame.inputs
      (fun e he => hds e (List.mem_cons_of_mem _ he)) ht
    have hd : absorbBytes d s.registers = .ok u.registers :=
      absorbBytes_registers (s := s.setInputs (ds.map absorbInput)) hu
    rw [List.flatten_cons, absorbBytes_append, hd]
    exact hrest

end

/-- A list of ABSORBs runs through in a session that meets the invariant, and leaves the registers of one byte loop
over their concatenation. -/
theorem run_absorbs_of_inv {s : State} {ds : List (List Byte)} (hinv : s.Inv) (ha : s.phase = .active)
    (hds : ∀ d ∈ ds, d.length < 268435456) :
    ∃ t : State, Sys2Proof.core.run ds.length (s.setInputs (ds.map absorbInput)) = .next t ∧
      t.responses = s.responses ++ List.replicate ds.length ⟨.ok, []⟩ ∧
      absorbBytes ds.flatten s.registers = .ok t.registers := by
  obtain ⟨t, ht, -, -, -, -, -, hresp⟩ := run_absorbs_of_hasAbsorbed (rest := [])
    ((hinv.hasAbsorbed ha).setInputs (ds.map absorbInput)) ha (List.append_nil _).symm hds
  exact ⟨t, ht, hresp, run_absorbs_registers (s := s.setInputs (ds.map absorbInput)) ha rfl hds ht⟩

/-- Settles O28: both cuttings leave what one byte loop over the concatenation leaves. -/
theorem chunkingInvariance : Obligations.ChunkingInvariance := by
  intro s ds es hinv ha hds hes hcat
  obtain ⟨t, ht, htresp, htregs⟩ := run_absorbs_of_inv hinv ha hds
  obtain ⟨u, hu, huresp, huregs⟩ := run_absorbs_of_inv hinv ha hes
  refine ⟨t, u, ht, hu, ?_, htresp, huresp⟩
  rw [hcat, huregs, Except.ok.injEq] at htregs
  exact htregs.symm

end Sys2Proof.Machine
end

section
/-! ## Scope: COMPRESS and G

G word by word, G calls on disjoint quadruples, the set-up, the rounds and the feed-forward of COMPRESS
(42_compress.md R141 to R149). -/

namespace Sys2Proof.Machine

/-! ### The mixing primitive -/

/-- The lane of G in one expression for each word, its rotations as rotations of the bit string (R141). -/
theorem mixLane_eq (l : Lane) (x y : Word) :
    mixLane l x y =
      let a1 := l.a + l.b + x
      let d1 := (l.d ^^^ a1).rotateRight 32
      let c1 := l.c + d1
      let b1 := (l.b ^^^ c1).rotateRight 24
      let a2 := a1 + b1 + y
      let d2 := (d1 ^^^ a2).rotateRight 16
      let c2 := c1 + d2
      ⟨a2, (b1 ^^^ c2).rotateRight 63, c2, d2⟩ := by
  rw [mixLane, rotr_eq_rotateRight _ (n := 32) (by decide), rotr_eq_rotateRight _ (n := 24) (by decide),
    rotr_eq_rotateRight _ (n := 16) (by decide), rotr_eq_rotateRight _ (n := 63) (by decide)]

/-- G leaves the mixed lane at its four indices. -/
theorem laneOf_mixG (q : Quad) (x y : Word) (v : Vector Word 16) :
    laneOf (mixG q x y v) q = mixLane (laneOf v q) x y :=
  laneOf_putLane v q _

/-- Settles O37: the lane after G is the mixed lane, and nothing else is put back. -/
theorem mixingPrimitive : Obligations.MixingPrimitive := by
  intro q x y v
  have hlane := laneOf_mixG q x y v
  rw [mixLane_eq] at hlane
  obtain ⟨ha, hb, hc, hd⟩ := Lane.mk.inj hlane
  refine ⟨ha, hb, hc, hd, fun i hia hib hic hid => putLane_other v q _ i ?_⟩
  simp [hia, hib, hic, hid]

/-! ### Disjoint quadruples -/

section
variable {p q : Quad}

/-- At a quadruple's indices nothing of the vector before is left. -/
theorem putLane_getElem_of_mem {i : Fin 16} (h : i ∈ [q.a, q.b, q.c, q.d]) (v w : Vector Word 16) (l : Lane) :
    (putLane v q l)[i] = (putLane w q l)[i] := by
  simp only [List.mem_cons, List.not_mem_nil, or_false] at h
  rw [putLane_getElem, putLane_getElem]
  split_ifs <;> tauto

variable (h : ∀ i ∈ [p.a, p.b, p.c, p.d], i ∉ [q.a, q.b, q.c, q.d])
include h

/-- A lane put elsewhere is not seen. -/
theorem laneOf_putLane_of_disjoint (v : Vector Word 16) (l : Lane) : laneOf (putLane v q l) p = laneOf v p := by
  simp only [laneOf, Lane.mk.injEq]
  refine ⟨?_, ?_, ?_, ?_⟩
  all_goals exact putLane_other v q l _ (h _ (by simp))

/-- Lanes put at disjoint quadruples may be put in either order. -/
theorem putLane_comm_of_disjoint (v : Vector Word 16) (l k : Lane) :
    putLane (putLane v q k) p l = putLane (putLane v p l) q k := by
  suffices hword : ∀ i : Fin 16, (putLane (putLane v q k) p l)[i] = (putLane (putLane v p l) q k)[i] from
    Vector.ext fun i hi => hword ⟨i, hi⟩
  intro i
  by_cases hp : i ∈ [p.a, p.b, p.c, p.d]
  · rw [putLane_other _ q k i (h i hp)]
    exact putLane_getElem_of_mem hp _ _ l
  · rw [putLane_other _ p l i hp]
    by_cases hq : i ∈ [q.a, q.b, q.c, q.d]
    · exact putLane_getElem_of_mem hq _ _ k
    · rw [putLane_other _ q k i hq, putLane_other _ q k i hq, putLane_other _ p l i hp]

/-- Each call mixes the lane the other leaves alone (R149). -/
theorem mixG_comm_of_disjoint (x y z w : Word) (v : Vector Word 16) :
    mixG p x y (mixG q z w v) = mixG q z w (mixG p x y v) := by
  have h' : ∀ i ∈ [q.a, q.b, q.c, q.d], i ∉ [p.a, p.b, p.c, p.d] := fun i hq hp => h i hp hq
  rw [mixG, mixG, laneOf_putLane_of_disjoint h, putLane_comm_of_disjoint h, mixG, mixG,
    laneOf_putLane_of_disjoint h']

end

/-- Settles O38, from the commutation of disjoint lanes; the quadruples of a half-round are eight constants. -/
theorem lanesOfAHalfRoundCommute : Obligations.LanesOfAHalfRoundCommute :=
  ⟨fun _ _ x y z w v h => mixG_comm_of_disjoint h x y z w v, by decide⟩

/-! ### Set-up, rounds and feed-forward -/

/-- Settles O40: the sixteen words of the set-up, read off its list. -/
theorem workingVectorSetUp : Obligations.WorkingVectorSetUp := by
  intro h tLo tHi last
  refine ⟨fun i => ?_, fun i hi => ?_, rfl, rfl, rfl, rfl⟩
  · fin_cases i <;> rfl
  · match i, hi with
    | 0, _ | 1, _ | 2, _ | 3, _ => rfl

/-- Every word of the feed-forward (R147). -/
theorem feedForward_getElem (h : Vector Word 8) (v : Vector Word 16) (i : Fin 8) :
    (feedForward h v)[i] = h[i] ^^^ v[i.val] ^^^ v[i.val + 8] := by
  fin_cases i <;> rfl

/-- A quadruple is its four indices. -/
theorem Quad.eq_of_val_eq {p q : Quad}
    (h : p.a.val = q.a.val ∧ p.b.val = q.b.val ∧ p.c.val = q.c.val ∧ p.d.val = q.d.val) : p = q := by
  obtain ⟨ha, hb, hc, hd⟩ := h
  exact (Quad.mk.injEq ..).mpr ⟨Fin.ext ha, Fin.ext hb, Fin.ext hc, Fin.ext hd⟩

/-- A round is eight calls in order, on the quadruples of R143's formula (R143, R144). -/
theorem mixRound_eq_foldl {quads : Fin 8 → Quad}
    (hcol : ∀ k : Fin 8, k.val < 4 → (quads k).a.val = k.val ∧ (quads k).b.val = 4 + k.val ∧
      (quads k).c.val = 8 + k.val ∧ (quads k).d.val = 12 + k.val)
    (hdiag : ∀ k : Fin 8, 4 ≤ k.val → (quads k).a.val = k.val - 4 ∧
      (quads k).b.val = 4 + (k.val - 4 + 1) % 4 ∧ (quads k).c.val = 8 + (k.val - 4 + 2) % 4 ∧
      (quads k).d.val = 12 + (k.val - 4 + 3) % 4)
    (m v : Vector Word 16) (s : Vector (Fin 16) 16) :
    mixRound m v s = (List.finRange 8).foldl (fun v k =>
      mixG (quads k) m[s[2 * k.val]] m[s[2 * k.val + 1]] v) v := by
  have h0 : column0 = quads 0 := (Quad.eq_of_val_eq (hcol 0 (by decide))).symm
  have h1 : column1 = quads 1 := (Quad.eq_of_val_eq (hcol 1 (by decide))).symm
  have h2 : column2 = quads 2 := (Quad.eq_of_val_eq (hcol 2 (by decide))).symm
  have h3 : column3 = quads 3 := (Quad.eq_of_val_eq (hcol 3 (by decide))).symm
  have h4 : diagonal0 = quads 4 := (Quad.eq_of_val_eq (hdiag 4 (by decide))).symm
  have h5 : diagonal1 = quads 5 := (Quad.eq_of_val_eq (hdiag 5 (by decide))).symm
  have h6 : diagonal2 = quads 6 := (Quad.eq_of_val_eq (hdiag 6 (by decide))).symm
  have h7 : diagonal3 = quads 7 := (Quad.eq_of_val_eq (hdiag 7 (by decide))).symm
  rw [mixRound, h0, h1, h2, h3, h4, h5, h6, h7]
  rfl

/-- The rows of SIGMA, one for each round. -/
theorem sigma_toList : sigma.toList = (List.finRange 12).map fun r => sigma[r] := rfl

/-- Settles O41: each round is its eight calls, the rounds follow the rows of SIGMA, and the feed-forward takes
their working vector. -/
theorem compressFollowsSchedule : Obligations.CompressFollowsSchedule := by
  intro quads hcol hdiag h m tLo tHi last v i
  have hrounds : sigma.toList.foldl (mixRound m) (workingVector h tLo tHi last) = v := by
    rw [sigma_toList, List.foldl_map]
    simp only [mixRound_eq_foldl hcol hdiag]
    rfl
  rw [compress, hrounds, feedForward_getElem]

end Sys2Proof.Machine
end

section
/-! ## Scope: FINALIZE

The padded block and the count that FINALIZE compresses it under, and how many compressions a session performs from
INIT to its digest (43_finalize.md R180 to R189). -/

namespace Sys2Proof.Machine

/-! ### Padding and the last compression -/

/-- The counter takes the pending bytes in as one 128-bit sum (R181). -/
theorem State.padded_counter (s : State) : s.padded.counter = s.counter + s.cursor.setWidth 128 := by
  have hwide : (cursorWord s.cursor).setWidth 128 = s.cursor.setWidth 128 :=
    BitVec.eq_of_toNat_eq (by simp [cursorWord])
  rw [← hwide]
  exact counterAdd_counter s (cursorWord s.cursor)

/-- The last compression leaves the count alone. -/
theorem State.finalized_counter (s : State) : s.finalized.counter = s.padded.counter := rfl

section
variable {s : State}

/-- The final block is the pending bytes, then zeros (R182). -/
theorem State.padded_bytes (hc : s.cursor.toNat ≤ 128) :
    s.padded.buf.bytes 0 128 = s.pending ++ List.replicate (128 - s.cursor.toNat) 0 := bytes_zeroFill s hc

/-- The padded buffer index by index. -/
theorem State.padded_read (hc : s.cursor.toNat ≤ 128) (i : Nat) :
    s.padded.buf.read i = if s.cursor.toNat ≤ i ∧ i < 128 then some 0 else s.buf.read i := by
  have hend : s.cursor.toNat + (zeroFill s.cursor).length = 128 := by rw [zeroFill_length]; omega
  rw [State.padded, State.setBuf_buf, Memory.read_writeList, hend]
  split
  · exact List.getElem?_replicate_of_lt (by rw [Config.blockBytes]; omega)
  · rfl

/-- The last compression takes the padded block and the new count (R183). -/
theorem State.finalized_h (hc : s.cursor.toNat ≤ 128) :
    s.finalized.h = compress s.h (messageWords (s.pending ++ List.replicate (128 - s.cursor.toNat) 0))
      s.finalized.tLo s.finalized.tHi true := by
  rw [← State.padded_bytes hc]
  rfl

end

/-- Settles O32: in a session the padded block is compressed under the new count, and outside one the phase check
answers. -/
theorem finalizeEffect : Obligations.FinalizeEffect := by
  intro s
  refine ⟨fun ha _ hc hw => ⟨s.padded.buf, ?_, State.padded_read hc⟩, fun hp => ?_⟩
  · rw [(State.hasAbsorbed_pending hc hw).exec_finalize ha, ← State.padded_counter, ← State.finalized_counter,
      counter_low, counter_high, ← State.finalized_h hc]
    rfl
  · rcases hp with hp | hp
    all_goals exact exec_finalize_of_misuse (by simp [hp]) (by simp [hp])

/-! ### The last compression of a stream -/

section
variable {s : State} {start : Vector Word 8 × BitVec 128} {stream : List Byte}

/-- FINALIZE counts the whole stream (R187). -/
theorem State.HasAbsorbed.finalized_counter (h : s.HasAbsorbed start stream) :
    s.finalized.counter = start.2 + BitVec.ofNat 128 stream.length := by
  have hlen : 128 * fullBlocks stream + s.cursor.toNat = stream.length := by
    have := mul_fullBlocks_le stream
    rw [h.cursor_eq]
    omega
  rw [State.finalized_counter, State.padded_counter, h.counter_eq, BitVec.add_assoc, ← BitVec.ofNat_toNat,
    ← BitVec.ofNat_add, hlen]

/-- The digest of a session is the one-go hash of its stream. -/
theorem State.HasAbsorbed.digest_finalized {k : BitVec 7} {key data : List Byte} (ha : s.phase = .active)
    (h : s.HasAbsorbed (initialHash s.outlen k, 0) (sessionStream key data)) :
    digest s.finalized = blake2b s.outlen k key data := by
  obtain ⟨t, ht, -, -, hresp⟩ := exec_finalize_of_hasAbsorbed ha h
  rw [h.exec_finalize ha] at ht
  cases ht
  simpa [s.finalized_sameControl.responses] using hresp

end

/-! ### The empty session -/

/-- Zero bytes load as the zero word, so a zero block parses to zero words (R145). -/
theorem loadLE64_zeros (n off : Nat) : loadLE64 (List.replicate n 0) off = 0 := by
  simp [loadLE64, byteAt]

theorem messageWords_zeros (n : Nat) : messageWords (List.replicate n 0) = Vector.replicate 16 0 := by
  simp only [messageWords, loadLE64_zeros]
  rfl

/-- Settles O34: INIT without a key leaves a session that has taken in no byte. -/
theorem emptySessionCompressesZeroBlock : Obligations.EmptySessionCompressesZeroBlock := by
  intro s o hp ho1 ho
  obtain ⟨t, ht, habs, hphase, -⟩ := exec_init_hasAbsorbed (k := 0) (key := []) hp rfl ho1 ho (by decide)
  have hempty : sessionStream [] [] = [] := rfl
  rw [hempty] at habs
  obtain ⟨hh, -, hpending⟩ := habs.of_length_le (Nat.zero_le 128)
  have hcount : t.finalized.counter = 0 := habs.finalized_counter
  have hlast := State.finalized_h habs.cursor_le
  rw [hh, hpending, List.nil_append, messageWords_zeros, ← counter_low, ← counter_high, hcount] at hlast
  exact ⟨t, _, ht, habs.exec_finalize hphase, hlast, hcount, rfl⟩

/-! ### The count of compressions -/

/-- The key block counts as 128 bytes of the stream (R187). -/
theorem sessionStream_length {key : List Byte} (h : key.length ≤ 128) (data : List Byte) :
    (sessionStream key data).length = (if key = [] then 0 else 128) + data.length := by
  rw [sessionStream, List.length_append]
  split
  · rfl
  · rw [keyBlock_length h]

/-- The full blocks and the block held back, counted at once (R187). -/
theorem fullBlocks_add_one (bytes : List Byte) : fullBlocks bytes + 1 = max 1 ((bytes.length + 127) / 128) := by
  rw [fullBlocks]
  omega

/-- Settles O49: the session before FINALIZE has compressed the full blocks of its stream, and FINALIZE compresses the
block held back. -/
theorem compressionCount : Obligations.CompressionCount := by
  intro s o k key ds hp hl ho1 ho hk hds stream total count
  have hlen : stream.length = total := sessionStream_length (by omega) _
  have hcount : fullBlocks stream + 1 = count := by rw [fullBlocks_add_one, hlen]
  have hfull : count - 1 = fullBlocks stream := by omega
  obtain ⟨t, hrun, habs, hphase, rfl, -⟩ := run_session_open (s := s) (rest := []) hp hl ho1 ho hk hds
  rw [List.append_nil] at hrun
  have hcounter : t.counter = BitVec.ofNat 128 (128 * fullBlocks stream) :=
    habs.counter_eq.trans (BitVec.zero_add _)
  have htotal : t.finalized.counter = BitVec.ofNat 128 total := by
    rw [habs.finalized_counter, ← hlen]
    exact BitVec.zero_add _
  have hlast := State.finalized_h habs.cursor_le
  rw [← State.pending_length] at hlast
  rw [hfull]
  refine ⟨hlen, hcount, ?_, t, _, hrun, hphase, habs.compressed, hcounter, habs.held, habs.exec_finalize hphase, rfl,
    htotal, hlast, (habs.digest_finalized hphase).symm⟩
  rw [← hlen, fullBlocks]
  omega

end Sys2Proof.Machine
end

section
/-! ## Scope: the checks of a command

What each check of 60_exceptions.md R205 answers and writes, and which of them decides a command: `dueStatus` is
R205's order over the decoded word, read off the word's number by `dueStatus_decodeCommand`. -/

namespace Sys2Proof.Machine

/-- Settles O8: it is the case of `step` for a word that decodes. -/
theorem stepRunsDecodedCommand : Obligations.StepRunsDecodedCommand :=
  fun _ _ _ _ _ hin hd => step_command hin hd

/-! ### The single checks -/

/-- The words R202 calls illegal are those the decoder refuses. -/
theorem decodeCommand_error_iff_illegal {w : CmdWord} {p : List Byte} :
    (∃ e, decodeCommand w p = .error e) ↔
      w.toNat % 16 = 0 ∨ 4 ≤ w.toNat % 16 ∨ (w.toNat % 16 = 1 ∧ w.toNat / 262144 ≠ 0) ∨
        (w.toNat % 16 = 3 ∧ w.toNat / 16 ≠ 0) := by
  rw [decodeCommand_error_iff, ne_eq, ← BitVec.toNat_inj, BitVec.toNat_ofNat]
  omega

/-- Settles O11: the word does not decode, so the step raises IllegalCommand. -/
theorem illegalWordTakesIllegalCommand : Obligations.IllegalWordTakesIllegalCommand := by
  intro s w p rest hin hp hword
  obtain ⟨e, hd⟩ := decodeCommand_error_iff_illegal.mpr hword
  exact (step_illegal hin hd).trans (illegalWord_of_not_faulted (s := s.setInputs rest) hp)

theorem exec_of_wrongLength {s : State} {i : Instr} (hp : s.phase ≠ .faulted)
    (hl : i.payload.length ≠ i.declaredLength) : exec i s = .next (raise .payloadMismatch s) :=
  exec_of_not_wellFormed hp (beq_eq_false_iff_ne.mpr hl)

/-- Settles O12: the length is compared before any command looks at its operands. -/
theorem wrongPayloadTakesPayloadMismatch : Obligations.WrongPayloadTakesPayloadMismatch := by
  intro s hp mismatch
  exact ⟨fun o k key hl => exec_of_wrongLength (i := .init o k key) hp hl,
    fun n data hl => exec_of_wrongLength (i := .absorb n data) hp hl,
    fun p hne => exec_of_wrongLength (i := .finalize p) hp (mt List.length_eq_zero_iff.mp hne)⟩

/-- INIT of the right length never enters FAULTED (R101, R102, R106). -/
theorem exec_init_not_faulted {s : State} {o k : BitVec 7} {key : List Byte} (hp : s.phase ≠ .faulted)
    (hl : key.length = k.toNat) : ∃ t, exec (.init o k key) s = .next t ∧ t.phase ≠ .faulted := by
  by_cases hlegal : 1 ≤ o.toNat ∧ o.toNat ≤ 64 ∧ k.toNat ≤ 64
  · exact ⟨_, exec_init_of_legal hp hl hlegal, nofun⟩
  · exact ⟨_, exec_init_of_illegal hp hl hlegal, hp⟩

/-- Settles O13: UNINIT and TERMINAL are the phases that are neither FAULTED nor ACTIVE. -/
theorem misuseTakesSessionMisuse : Obligations.MisuseTakesSessionMisuse := by
  intro s hphase misuse
  have hp : s.phase ≠ .faulted := by rcases hphase with h | h <;> simp [h]
  have ha : s.phase ≠ .active := by rcases hphase with h | h <;> simp [h]
  exact ⟨fun n data hl => exec_absorb_of_misuse hp ha hl, exec_finalize_of_misuse hp ha,
    fun o k key hl => exec_init_not_faulted hp hl⟩

/-! ### Into FAULTED and inside it -/

/-- Of the ends of R205 only fault entry leads into FAULTED. -/
theorem Decision.raise_of_faulted {s t : State} {d : Except DecodeError Instr}
    {f : State → Host.Outcome State Fault Refusal} (hf : Decision s.phase d f) (hp : s.phase ≠ .faulted)
    (ht : f s = .next t) (htp : t.phase = .faulted) : ∃ e, t = raise e s := by
  cases hf with
  | sticky _ hs => exact absurd hs hp
  | trap _ e _ =>
    cases ht
    exact ⟨e, rfl⟩
  | reject _ _ =>
    cases ht
    exact absurd htp hp
  | init o k key _ hl hlegal =>
    obtain ⟨_, _, hk⟩ := hlegal
    rw [performInit_eq_ok hl hk (finish_eq_next.mp ht)] at htp
    exact nomatch htp
  | absorb n data ha _ =>
    obtain ⟨u, hu, rfl⟩ := performAbsorb_eq_ok.mp (finish_eq_next.mp ht)
    exact absurd ((absorbBytes_sameControl hu).phase.symm.trans htp) hp
  | finalize _ =>
    rw [performFinalize_eq_ok (finish_eq_next.mp ht)] at htp
    exact nomatch htp

/-- The codes of the faults (R200). -/
theorem Trap.status_code (e : Trap) : e.status.code = 2 ∨ e.status.code = 3 ∨ e.status.code = 4 := by
  cases e <;> decide

/-- Settles O14: the command entered FAULTED by fault entry, which writes FAULT and PHASE. -/
theorem faultEntryWritesFaultAndPhaseOnly : Obligations.FaultEntryWritesFaultAndPhaseOnly := by
  intro s t w p rest hin hp ht htp
  obtain ⟨f, hf, hrun⟩ := runDecoded_decision s.phase (decodeCommand w p)
  have hft : f (s.setInputs rest) = .next t :=
    (hrun (s.setInputs rest) rfl).symm.trans ((step_runDecoded hin).symm.trans ht)
  obtain ⟨e, rfl⟩ := Decision.raise_of_faulted (s := s.setInputs rest) hf hp hft htp
  exact ⟨e.status, e.status_code, rfl⟩

/-- While FAULTED every word, legal or not, gets the sticky answer (R207). -/
theorem step_of_faulted {s : State} {w : CmdWord} {p : List Byte} {rest : List Input}
    (hin : s.inputs = .command w p :: rest) (hp : s.phase = .faulted) :
    step s = answerFaulted (s.setInputs rest) := by
  cases hd : decodeCommand w p with
  | ok i => exact (step_command hin hd).trans (exec_of_faulted i hp)
  | error e => exact (step_illegal hin hd).trans (illegalWord_of_faulted hp)

/-- Settles O15: a command gets the sticky answer, which writes no register, and an idle step writes nothing. -/
theorem faultedCoreOnlyAnswersItsFault : Obligations.FaultedCoreOnlyAnswersItsFault := by
  constructor
  · intro s w p rest st hin hp hst
    exact (step_of_faulted hin hp).trans (answerFaulted_of_code (s := s.setInputs rest) hst)
  · intro s t hp hreset ht
    rcases step_decision s with ⟨_, hs⟩ | ⟨rest, hin, _⟩ | ⟨w, p, rest, _, hin, _, _⟩
    · rw [hs] at ht
      cases ht
      exact ⟨hp, rfl⟩
    · exact absurd (by rw [hin]; rfl) hreset
    · rw [step_of_faulted hin hp] at ht
      obtain ⟨st, _, rfl⟩ := answerFaulted_next ht
      exact ⟨hp, rfl⟩

/-! ### The order of the checks -/

/-- The status R205 gives a command of the declared length outside FAULTED, in phase `p`. -/
def operandStatus (p : Phase) : Instr → Status
  | .init o k _ => if 1 ≤ o.toNat ∧ o.toNat ≤ 64 ∧ k.toNat ≤ 64 then .ok else .invalidParameter
  | .absorb _ _ | .finalize _ => if p = .active then .ok else .sessionMisuse

/-- The status R205 gives a decoded word outside FAULTED, in phase `p`. -/
def dueStatus (p : Phase) : Except DecodeError Instr → Status
  | .error _ => .illegalCommand
  | .ok i => if i.payload.length ≠ i.declaredLength then .payloadMismatch else operandStatus p i

/-- `t` is `s` answered with the status `st`; a session register is written only if it is OK (R205). -/
structure State.AnsweredBy (s t : State) (st : Status) : Prop where
  inputs : t.inputs = s.inputs
  responses : ∃ data, t.responses = s.responses ++ [⟨st, data⟩]
  kept : st ≠ .ok → t.h = s.h ∧ t.tLo = s.tLo ∧ t.tHi = s.tHi ∧ t.buf = s.buf ∧ t.cursor = s.cursor ∧
    t.outlen = s.outlen

theorem State.answeredBy_respond (s : State) (st : Status) (data : List Byte) :
    s.AnsweredBy (s.respond st data) st :=
  ⟨rfl, ⟨data, rfl⟩, fun _ => ⟨rfl, rfl, rfl, rfl, rfl, rfl⟩⟩

theorem State.answeredBy_raise (s : State) (e : Trap) : s.AnsweredBy (raise e s) e.status :=
  ⟨rfl, ⟨[], rfl⟩, fun _ => ⟨rfl, rfl, rfl, rfl, rfl, rfl⟩⟩

/-- A command answered OK may write any session register. -/
theorem State.AnsweredBy.of_ok {s t : State} {data : List Byte} (hin : t.inputs = s.inputs)
    (hresp : t.responses = s.responses ++ [⟨.ok, data⟩]) : s.AnsweredBy t .ok :=
  ⟨hin, ⟨data, hresp⟩, fun h => absurd rfl h⟩

/-- INIT of the right length is answered by its parameters alone. -/
theorem exec_init_answeredBy {s : State} {o k : BitVec 7} {key : List Byte} (hp : s.phase ≠ .faulted)
    (hl : key.length = k.toNat) :
    ∃ t, exec (.init o k key) s = .next t ∧ s.AnsweredBy t (operandStatus s.phase (.init o k key)) := by
  rw [operandStatus]
  by_cases hlegal : 1 ≤ o.toNat ∧ o.toNat ≤ 64 ∧ k.toNat ≤ 64
  · rw [if_pos hlegal]
    exact ⟨_, exec_init_of_legal hp hl hlegal, .of_ok (data := []) (s.opened_inputs o k key) (by simp)⟩
  · rw [if_neg hlegal]
    exact ⟨_, exec_init_of_illegal hp hl hlegal, s.answeredBy_respond _ _⟩

/-- A command of the declared length outside FAULTED is answered by its operands and PHASE. -/
theorem exec_answeredBy_operandStatus {s : State} (h : s.Inv) (hp : s.phase ≠ .faulted) {i : Instr}
    (hl : i.payload.length = i.declaredLength) :
    ∃ t, exec i s = .next t ∧ s.AnsweredBy t (operandStatus s.phase i) := by
  cases i with
  | init o k key => exact exec_init_answeredBy hp hl
  | absorb n data =>
    rw [operandStatus]
    by_cases ha : s.phase = .active
    · obtain ⟨t, ht, _, hsame⟩ := exec_absorb_of_hasAbsorbed (h.hasAbsorbed ha) ha hl
      rw [if_pos ha]
      exact ⟨t, ht, .of_ok hsame.inputs hsame.responses⟩
    · rw [if_neg ha]
      exact ⟨_, exec_absorb_of_misuse hp ha hl, s.answeredBy_raise .sessionMisuse⟩
  | finalize payload =>
    obtain rfl : payload = [] := List.length_eq_zero_iff.mp hl
    rw [operandStatus]
    by_cases ha : s.phase = .active
    · rw [if_pos ha]
      exact ⟨_, h.exec_finalize ha, .of_ok rfl rfl⟩
    · rw [if_neg ha]
      exact ⟨_, exec_finalize_of_misuse hp ha, s.answeredBy_raise .sessionMisuse⟩

/-- Every decoded word outside FAULTED is answered with the status due to it. -/
theorem runDecoded_answeredBy_dueStatus {s : State} (h : s.Inv) (hp : s.phase ≠ .faulted)
    (d : Except DecodeError Instr) : ∃ t, runDecoded d s = .next t ∧ s.AnsweredBy t (dueStatus s.phase d) := by
  cases d with
  | error e => exact ⟨_, illegalWord_of_not_faulted hp, s.answeredBy_raise .illegalCommand⟩
  | ok i =>
    by_cases hl : i.payload.length = i.declaredLength
    · rw [dueStatus, if_neg (not_not_intro hl)]
      exact exec_answeredBy_operandStatus h hp hl
    · rw [dueStatus, if_pos hl]
      exact ⟨_, exec_of_wrongLength hp hl, s.answeredBy_raise .payloadMismatch⟩

theorem encodeWord_init_fields (o k : BitVec 7) (key : List Byte) :
    (encodeWord (.init o k key)).toNat % 16 = 1 ∧ (encodeWord (.init o k key)).toNat / 16 % 128 = o.toNat ∧
      (encodeWord (.init o k key)).toNat / 2048 % 128 = k.toNat := by
  have ho := o.isLt
  have hk := k.isLt
  rw [encodeWord_init_toNat]
  omega

theorem encodeWord_absorb_fields (n : BitVec 28) (data : List Byte) :
    (encodeWord (.absorb n data)).toNat % 16 = 2 ∧ (encodeWord (.absorb n data)).toNat / 16 = n.toNat := by
  rw [encodeWord_absorb_toNat]
  omega

/-- `DeclaredLength(word)` of R205. -/
theorem declaredLength_eq_of_word (i : Instr) :
    i.declaredLength = if (encodeWord i).toNat % 16 = 1 then (encodeWord i).toNat / 2048 % 128
      else if (encodeWord i).toNat % 16 = 2 then (encodeWord i).toNat / 16 else 0 := by
  cases i with
  | init o k key =>
    obtain ⟨hop, _, hk⟩ := encodeWord_init_fields o k key
    rw [if_pos hop, hk]
    rfl
  | absorb n data =>
    obtain ⟨hop, hlen⟩ := encodeWord_absorb_fields n data
    rw [if_neg (by omega), if_pos hop, hlen]
    rfl
  | finalize payload => rfl

/-- The last checks of R205: the session for ABSORB and FINALIZE, the parameters for INIT. -/
theorem operandStatus_code_eq_of_word (ph : Phase) (i : Instr) :
    (operandStatus ph i).code =
      if ((encodeWord i).toNat % 16 = 2 ∨ (encodeWord i).toNat % 16 = 3) ∧ ph ≠ .active then 3
      else if (encodeWord i).toNat % 16 = 1 ∧ ¬(1 ≤ (encodeWord i).toNat / 16 % 128 ∧
        (encodeWord i).toNat / 16 % 128 ≤ 64 ∧ (encodeWord i).toNat / 2048 % 128 ≤ 64) then 1
      else 0 := by
  cases i with
  | init o k key =>
    obtain ⟨hop, ho, hk⟩ := encodeWord_init_fields o k key
    rw [if_neg (by omega), hop, ho, hk, operandStatus]
    by_cases hlegal : 1 ≤ o.toNat ∧ o.toNat ≤ 64 ∧ k.toNat ≤ 64
    · rw [if_pos hlegal, if_neg (fun h => h.2 hlegal)]
      rfl
    · rw [if_neg hlegal, if_pos ⟨rfl, hlegal⟩]
      rfl
  | absorb n data =>
    obtain ⟨hop, _⟩ := encodeWord_absorb_fields n data
    cases ph <;> simp [hop, operandStatus, Status.code]
  | finalize payload => cases ph <;> rfl

/-- R205's order over the word as a number. -/
theorem dueStatus_decodeCommand (ph : Phase) (w : CmdWord) (p : List Byte) :
    (dueStatus ph (decodeCommand w p)).code =
      let n := w.toNat
      let op := n % 16
      let outlen := n / 16 % 128
      let keylen := n / 2048 % 128
      let declared := if op = 1 then keylen else if op = 2 then n / 16 else 0
      if op = 0 ∨ 4 ≤ op ∨ (op = 1 ∧ n / 262144 ≠ 0) ∨ (op = 3 ∧ n / 16 ≠ 0) then 2
      else if p.length ≠ declared then 4
      else if (op = 2 ∨ op = 3) ∧ ph ≠ .active then 3
      else if op = 1 ∧ ¬(1 ≤ outlen ∧ outlen ≤ 64 ∧ keylen ≤ 64) then 1
      else 0 := by
  dsimp only
  cases hd : decodeCommand w p with
  | error e =>
    rw [if_pos (decodeCommand_error_iff_illegal.mp ⟨e, hd⟩)]
    rfl
  | ok i =>
    rw [if_neg (mt (decodeCommand_error_iff_illegal (p := p)).mpr (by simp [hd])), dueStatus,
      apply_ite Status.code, declaredLength_eq_of_word, operandStatus_code_eq_of_word,
      encodeWord_of_decodeCommand hd, payload_of_decodeCommand hd]
    rfl

/-- Settles O17: in FAULTED the answer is the sticky one, and outside it the status due to the decoded word. -/
theorem statusFollowsPriority : Obligations.StatusFollowsPriority := by
  intro s w p rest h hin n op outlen keylen declared
  by_cases hp : s.phase = .faulted
  · obtain ⟨st, hst⟩ := h.fault_eq_code hp
    have hans := (s.setInputs rest).answeredBy_respond st []
    refine ⟨_, st, [], (step_of_faulted hin hp).trans (answerFaulted_of_code (s := s.setInputs rest) hst), rfl, rfl,
      ?_, hans.kept⟩
    rw [if_pos hp, hst]
  · obtain ⟨t, ht, hans⟩ := runDecoded_answeredBy_dueStatus (h.setInputs rest) hp (decodeCommand w p)
    obtain ⟨data, hresp⟩ := hans.responses
    refine ⟨t, _, data, (step_runDecoded hin).trans ht, hans.inputs, hresp, ?_, hans.kept⟩
    rw [if_neg hp]
    exact dueStatus_decodeCommand s.phase w p

end Sys2Proof.Machine
end

section
/-! ## Scope: the reset input

Leaving any state by reset (70_reset_and_hazards.md R230; the values but PHASE and FAULT are the model's, logs 3
and 5). -/

namespace Sys2Proof.Machine

/-- Of the state a reset input was taken in, only the two channels to the host are left. -/
theorem takeReset_setInputs (s : State) (rest : List Input) :
    takeReset (s.setInputs rest) = { State.reset with inputs := rest, responses := s.responses } := rfl

/-- Settles O21: the step takes the input off the channel and resets every register. -/
theorem resetInputResets : Obligations.ResetInputResets := by
  intro s rest hin
  rw [step_reset hin, takeReset_setInputs]

end Sys2Proof.Machine
end
